-- ==== Sys2Proof/Word.lean ====
section
/-! DEFINITION. The word, its two readings and the register index (00_scope.md R10, R12, R13). -/

namespace Sys2Proof

/-- A word: 32 bits, never bytes (R10, R12, R103). -/
abbrev Word := BitVec 32

/-- A register index, 0 to 7 (R10, R50). -/
abbrev RegIdx := Fin 8

/-- `sint32`: the two's-complement reading of a word (R12). -/
abbrev sint32 (v : Word) : Int := v.toInt

/-- `wrap32`: the word whose unsigned value is `i mod 2^32` (R13). -/
abbrev wrap32 (i : Int) : Word := BitVec.ofInt 32 i

end Sys2Proof
end

