-- ==== Sys2Proof/Syntax.lean ====
section
/-! DEFINITION. The eight instructions (30_encoding.md R202, R208), with the operands decode gives them (R210). -/

namespace Sys2Proof

/-- One constructor per row of the opcode table.
`low` is the R-type low field as an unsigned number: the destination is its low `DEST_FIELD_BITS` bits (R205).
`offset` is the I-type low field as a signed number (R204). O-type instructions have no operand (R203). -/
inductive Instr where
  | add (regA regB : RegIdx) (low : Nat)
  | nand (regA regB : RegIdx) (low : Nat)
  | lw (regA regB : RegIdx) (offset : Int)
  | sw (regA regB : RegIdx) (offset : Int)
  | beq (regA regB : RegIdx) (offset : Int)
  | cmov (regA regB : RegIdx) (low : Nat)
  | halt
  | noop
deriving DecidableEq, Repr

/-- The eight values of the opcode field (R208). -/
inductive Opcode where
  | add | nand | lw | sw | beq | cmov | halt | noop
deriving DecidableEq, Repr

/-- The opcode an instruction stands for (R208). -/
def Instr.opcode : Instr → Opcode
  | .add _ _ _ => .add
  | .nand _ _ _ => .nand
  | .lw _ _ _ => .lw
  | .sw _ _ _ => .sw
  | .beq _ _ _ => .beq
  | .cmov _ _ _ => .cmov
  | .halt => .halt
  | .noop => .noop

end Sys2Proof
end

