-- ==== Sys2Proof/WellFormed.lean ====
section
/-! DEFINITION. Which instructions an instruction word can hold: the ranges of the low field (30_encoding.md R204, R205).
The register fields are in range by their type (R207). -/

namespace Sys2Proof

/-- An R-type low field: an unsigned 16-bit number (R205). -/
def lowInRange (low : Nat) : Bool := decide (low < 65536)

/-- An I-type offset: a signed 16-bit number (R204). -/
def offsetInRange (offset : Int) : Bool := decide (-32768 ≤ offset ∧ offset ≤ 32767)

def Instr.wellFormed : Instr → Bool
  | .add _ _ low => lowInRange low
  | .nand _ _ low => lowInRange low
  | .lw _ _ offset => offsetInRange offset
  | .sw _ _ offset => offsetInRange offset
  | .beq _ _ offset => offsetInRange offset
  | .cmov _ _ low => lowInRange low
  | .halt => true
  | .noop => true

end Sys2Proof
end

