-- ==== Sys2Proof/Decode.lean ====
section
/-! DEFINITION. Decode (30_encoding.md R201 to R210), total on every word (R209), and the encoder (R211). -/

namespace Sys2Proof

/-- The unsigned value of `w[lo+width-1 : lo]` (00_scope.md R11: bit 0 is the least significant). -/
def bitField (w : Word) (lo width : Nat) : Nat := w.toNat / 2 ^ lo % 2 ^ width

/-- `sext_16` of a 16-bit field given as an unsigned number (R13, R204). -/
def signExtend16 (n : Nat) : Int := if n < 32768 then (n : Int) else (n : Int) - 65536

/-- A 3-bit register field: every value names a register (R207). -/
def regField (w : Word) (lo : Nat) : RegIdx := ⟨bitField w lo 3, Nat.mod_lt _ (by decide)⟩

/-- `regA = w[21:19]` (R201). -/
def regAField (w : Word) : RegIdx := regField w 19

/-- `regB = w[18:16]` (R201). -/
def regBField (w : Word) : RegIdx := regField w 16

/-- `low = w[15:0]` (R201). -/
def lowField (w : Word) : Nat := bitField w 0 16

/-- `offset = sext_16(w[15:0])` (R204). -/
def offsetField (w : Word) : Int := signExtend16 (lowField w)

/-- The opcode map, value to instruction (R208). -/
def opcodeOfField (n : Fin 8) : Opcode :=
  match n with
  | 0 => .add
  | 1 => .nand
  | 2 => .lw
  | 3 => .sw
  | 4 => .beq
  | 5 => .cmov
  | 6 => .halt
  | 7 => .noop

/-- `opcode = w[24:22]` (R201, R208). -/
def opcodeField (w : Word) : Opcode := opcodeOfField (regField w 22)

/-- Decode reads `w[24:0]` alone and never refuses (R203, R209, R210). -/
def decode (w : Word) : Instr :=
  match opcodeField w with
  | .add => .add (regAField w) (regBField w) (lowField w)
  | .nand => .nand (regAField w) (regBField w) (lowField w)
  | .lw => .lw (regAField w) (regBField w) (offsetField w)
  | .sw => .sw (regAField w) (regBField w) (offsetField w)
  | .beq => .beq (regAField w) (regBField w) (offsetField w)
  | .cmov => .cmov (regAField w) (regBField w) (lowField w)
  | .halt => .halt
  | .noop => .noop

/-- The opcode map, instruction to value (R208). -/
def opcodeValue : Opcode → Nat
  | .add => 0
  | .nand => 1
  | .lw => 2
  | .sw => 3
  | .beq => 4
  | .cmov => 5
  | .halt => 6
  | .noop => 7

/-- `enc(op, a, b, l)` of R211, bits 31..25 zero. -/
def encodeFields (op : Opcode) (a b : RegIdx) (l : Int) : Word :=
  BitVec.ofNat 32 (opcodeValue op * 2 ^ 22 + a.val * 2 ^ 19 + b.val * 2 ^ 16 + (l % 65536).toNat)

/-- The word of an instruction (R211); the ignored fields of `halt` and `noop` are 0 (R212). -/
def encode : Instr → Word
  | .add a b low => encodeFields .add a b low
  | .nand a b low => encodeFields .nand a b low
  | .lw a b offset => encodeFields .lw a b offset
  | .sw a b offset => encodeFields .sw a b offset
  | .beq a b offset => encodeFields .beq a b offset
  | .cmov a b low => encodeFields .cmov a b low
  | .halt => encodeFields .halt 0 0 0
  | .noop => encodeFields .noop 0 0 0

/-- The word whose low `nbits` bits are those of `v`, the others 0. -/
def tableWord (nbits v : Nat) : Word := BitVec.ofNat 32 (v % 2 ^ nbits)

/-- What the decoder reads from an instruction whose bits are `w`; an instruction is one 32-bit word (R200), so
more bits than that are none. -/
def decodeTableWord (nbits w : Nat) : Option Instr :=
  if nbits ≤ 32 then some (decode (tableWord nbits w)) else none

end Sys2Proof
end

