-- ==== Sys2Proof/Config.lean ====
section
/-! DEFINITION. The parameters the block is a function of (00_scope.md R9), fixed for a whole run (10_state.md R59).
No instruction of this block has an undefined result: the one free value is the exit status the host shows. -/

namespace Sys2Proof

/-- `DEST_FIELD_BITS`: the width of the R-type destination field, 16 or 3 (R9, R205). -/
inductive DestFieldBits where
  | bits16
  | bits3
deriving DecidableEq, Repr

def DestFieldBits.width : DestFieldBits → Nat
  | .bits16 => 16
  | .bits3 => 3

/-- `TRACE_NOWHERE`: the two spellings of the destination of a discarded block (R9, R152). -/
inductive NowhereText where
  | theNowhere
  | nowhere
deriving DecidableEq, Repr

def NowhereText.text : NowhereText → String
  | .theNowhere => "the nowhere"
  | .nowhere => "nowhere"

/-- The configuration arguments and parameters of R9. -/
structure Config where
  /-- `BLOCK_SIZE`, words per cache block -/
  blockSize : Nat
  /-- `NUM_SETS` -/
  numSets : Nat
  /-- `BLOCKS_PER_SET` -/
  blocksPerSet : Nat
  /-- `MEM_WORDS` -/
  memWords : Nat
  destFieldBits : DestFieldBits
  traceNowhere : NowhereText
  /-- `REG_INIT` (10_state.md R53) -/
  regInit : Vector Word 8
deriving DecidableEq, Repr

/-- `n = 2^k` for some `k >= 0`. -/
abbrev IsPowerOfTwo (n : Nat) : Prop := 2 ^ n.log2 = n

/-- `OFFSET_BITS` (R9). -/
def Config.offsetBits (c : Config) : Nat := c.blockSize.log2

/-- `INDEX_BITS` (R9). -/
def Config.indexBits (c : Config) : Nat := c.numSets.log2

/-- The legal values of R9; `destFieldBits`, `traceNowhere` and `regInit` are legal by their types. -/
structure Config.Legal (c : Config) : Prop where
  blockSize_pow : IsPowerOfTwo c.blockSize
  numSets_pow : IsPowerOfTwo c.numSets
  blocksPerSet_pos : 1 ≤ c.blocksPerSet
  blockSize_le : c.blockSize ≤ c.memWords
  memWords_pos : 1 ≤ c.memWords
  memWords_mult : c.memWords % c.blockSize = 0
  memWords_le : c.memWords ≤ 2 ^ 31 - 32768

/-- The parameters that are not configuration arguments, at the values of this hardware (R9, R505), and the
geometry of the source's Scenario A (95_test_vectors.md S6). DESIGN CHOICE, unsafe: the spec gives the
geometry no value (log 1). PRESUMED, unsafe: `MEM_WORDS` is the spec's OPEN default (log 2). -/
def Config.hardware : Config where
  blockSize := 1
  numSets := 4
  blocksPerSet := 1
  memWords := 65536
  destFieldBits := .bits16
  traceNowhere := .theNowhere
  regInit := Vector.replicate 8 0

/-- Free value: one less than the exit status the host shows after a fatal condition with this code. The spec says
only that the status is non-zero (60_exceptions.md R451, 93_implementation_defined.md U18; log 8). -/
opaque Config.exitStatusLessOne : Nat → Nat

end Sys2Proof
end

