-- ==== Sys2Proof/Machine/State.lean ====
section
/-! DEFINITION. The state of the block (10_state.md R50 to R68), the reasons a step stops, and the state after reset. -/

namespace Sys2Proof.Machine

/-- The fatal conditions of 60_exceptions.md R450: five the host meets before the run, four a step meets. -/
inductive Cause where
  | configArgs | configFile | configGeometry | configProgramSize | formatLine
  | fetchBounds | dataBounds | destZero | destRange
deriving DecidableEq, Repr

/-- The record of a fatal condition in a run (60_exceptions.md R451): the pc of the faulting step, the fetched word
(absent for `FETCH_BOUNDS`) and the out-of-range address (bounds faults only). -/
structure FaultRecord where
  cause : Cause
  pc : Int
  word : Option Word
  addr : Option Int
deriving DecidableEq, Repr

/-- The engine status (R55). -/
inductive Status where
  | running
  | halted
  | faulted (record : FaultRecord)
deriving DecidableEq, Repr

/-- The kinds of transfer event (20_memory.md R150). -/
inductive EventKind where
  | cacheToProcessor | processorToCache | memoryToCache | cacheToMemory | cacheToNowhere
deriving DecidableEq, Repr

/-- A transfer event: its kind and the inclusive word-address range `first .. last` (20_memory.md R150). -/
structure Event where
  kind : EventKind
  first : Nat
  last : Nat
deriving DecidableEq, Repr

/-- A cache block (R62). -/
structure Block where
  valid : Bool
  dirty : Bool
  tag : Nat
  /-- `access_timestamp` -/
  ts : Nat
  memHead : Nat
  lines : List Word
deriving DecidableEq, Repr

/-- A block at reset (R63). -/
def Block.invalid (cfg : Config) : Block where
  valid := false
  dirty := false
  tag := 0
  ts := 0
  memHead := 0
  lines := List.replicate cfg.blockSize 0

/-- The memory image as (word address, word) pairs in the canonical form `Memory.wf` (Machine/Ops.lean). The cell is
the spec's smallest unit, the word: 20_memory.md R103 says a model never represents a word as bytes (log 6). -/
abbrev Memory := List (Nat × Word)

/-- The whole state: R68, and the model's own `fetched`. -/
structure State where
  /-- the configuration, constant for the run (R59) -/
  cfg : Config
  /-- `x[0] .. x[7]` (R50) -/
  regs : Vector Word 8
  /-- R54 -/
  pc : Int
  /-- R55 -/
  status : Status
  /-- R57 -/
  icount : Nat
  /-- R58 -/
  accessCounter : Nat
  /-- `cache[s][j]`: the sets, each a list of blocks (R61, R62) -/
  cache : List (List Block)
  /-- R64 -/
  mem : Memory
  /-- `N` (R65) -/
  populated : Nat
  /-- oldest event first (R66) -/
  trace : List Event
  /-- The word of the step in progress (the `w` of 40_engine.md R251), none between steps. DESIGN CHOICE, safe: a
  field of the model's own, so that a fault record can name the word (log 5). -/
  fetched : Option Word
deriving DecidableEq, Repr

/-- The ways `step` answers no next state. Both are stuck states: the spec gives `Halted` and `Faulted` no
transition (40_engine.md R250). A fatal condition itself is a next state, not one of these (log 4). -/
inductive Fault where
  /-- Raised by `step` alone, when the status is `Halted`: no instruction executes once reached (R55). Safe. -/
  | halted
  /-- Raised by `step` alone, when the status is `Faulted` with this record: the run is over (60_exceptions.md
  R451). Safe. -/
  | aborted (record : FaultRecord)
deriving DecidableEq, Repr

/-- Reasons for having no meaning. -/
inductive Refusal where
  /-- For an arm of `exec` that has no meaning yet; no arm of this model raises it. Safe. -/
  | notModelled (mnemonic : String)
deriving DecidableEq, Repr

/-- What an access asks of the cache (20_memory.md R119, R161). -/
inductive AccessOp where
  | read
  | write (v : Word)
deriving DecidableEq, Repr

/-- What the cache answers: completion with a word (for a read, the word read), or a bounds fault, which ends the
run (20_memory.md R161, R145). -/
inductive AccessResult where
  | done (word : Word) (s : State)
  | fatal (s : State)
deriving DecidableEq, Repr

/-- Every piece of state at its reset value under the configuration `cfg`, no program loaded (R68,
70_reset_and_hazards.md R500). -/
def State.initial (cfg : Config) : State where
  cfg := cfg
  regs := cfg.regInit
  pc := 0
  status := .running
  icount := 0
  accessCounter := 0
  cache := List.replicate cfg.numSets (List.replicate cfg.blocksPerSet (Block.invalid cfg))
  mem := []
  populated := 0
  trace := []
  fetched := none

/-- The machine right after reset, with the empty program (R500 with N = 0, which R506 calls legal). -/
def State.reset : State := State.initial Config.hardware

end Sys2Proof.Machine
end

