-- ==== Sys2Proof/Machine/Ops.lean ====
section
/-! DEFINITION. The named operations over memory, registers, pc and trace, and the taking of a fatal condition
(10_state.md, 20_memory.md, 60_exceptions.md). -/

namespace Sys2Proof.Machine

/-- What an unlisted address reads as: the image is zero-initialised (10_state.md R64, 70_reset_and_hazards.md R501). -/
def Memory.unlisted : Word := 0

/-- The canonical form: addresses strictly rising, no entry equal to what an unlisted address reads as. -/
abbrev Memory.wf (m : Memory) : Prop :=
  List.Pairwise (fun p q => p.1 < q.1) m ∧ ∀ p ∈ m, p.2 ≠ Memory.unlisted

/-- The word at one address. -/
def Memory.read : Memory → Nat → Word
  | [], _ => Memory.unlisted
  | (b, v) :: rest, a => if a = b then v else Memory.read rest a

/-- Put a word at the head of a memory whose addresses all lie above `a`, keeping the canonical form. -/
def Memory.consWord (a : Nat) (v : Word) (m : Memory) : Memory :=
  if v = Memory.unlisted then m else (a, v) :: m

/-- Store one word, keeping the canonical form. -/
def Memory.write : Memory → Nat → Word → Memory
  | [], a, v => Memory.consWord a v []
  | (b, w) :: rest, a, v =>
    if a < b then Memory.consWord a v ((b, w) :: rest)
    else if a = b then Memory.consWord a v rest
    else (b, w) :: Memory.write rest a v

/-- `MemRead(h, n)` (00_scope.md R15). -/
def Memory.readBlock (m : Memory) (h n : Nat) : List Word := (List.range n).map fun k => m.read (h + k)

/-- `MemWrite(h, n, ws)` with `n` the length of `ws` (00_scope.md R15). -/
def Memory.writeBlock (m : Memory) (h : Nat) : List Word → Memory
  | [] => m
  | w :: ws => Memory.writeBlock (m.write h w) (h + 1) ws

/-- `x[r]` (00_scope.md R14). Register 0 is ordinary storage (10_state.md R51). -/
def State.reg (s : State) (r : RegIdx) : Word := s.regs.get r

/-- `x[r] <- v` (00_scope.md R14, 10_state.md R51). -/
def State.setReg (s : State) (r : RegIdx) (v : Word) : State := { s with regs := s.regs.set r.val v r.isLt }

/-- `pc <- target`, an integer (10_state.md R54). -/
def State.setPc (s : State) (target : Int) : State := { s with pc := target }

/-- `pc <- pc + 1` (10_state.md R54). -/
def State.advancePc (s : State) : State := s.setPc (s.pc + 1)

/-- `status <- Halted` (43_control.md R410). -/
def State.setHalted (s : State) : State := { s with status := .halted }

/-- `emit(kind, first, last)` (00_scope.md R16, 20_memory.md R150). -/
def State.emit (s : State) (kind : EventKind) (first last : Nat) : State :=
  { s with trace := s.trace ++ [⟨kind, first, last⟩] }

/-- `raise Fatal(cause, …)`, the one operation by which a fatal condition is taken (60_exceptions.md R451): the record
holds the pc and the word of the step, and nothing else changes. No register saves the pc and no handler runs
(R459); there is no return (R460). -/
def State.raiseFatal (s : State) (cause : Cause) (addr : Option Int) : State :=
  { s with status := .faulted ⟨cause, s.pc, s.fetched, addr⟩ }

end Sys2Proof.Machine
end

