-- ==== Sys2Proof/Machine/Flags.lean ====
section
/-! DEFINITION. The block has no flags (10_state.md R56). What stands in their place are the two tests of register
values that `beq` and `cmov` make, both of the 32-bit pattern (41_register.md R330). -/

namespace Sys2Proof.Machine

/-- The test of `beq`: pattern equality (43_control.md R400). -/
def samePattern (a b : Word) : Bool := a == b

/-- The test of `cmov`: any non-zero pattern (41_register.md R320). -/
def nonZeroPattern (c : Word) : Bool := c != 0

end Sys2Proof.Machine
end

