-- ==== Sys2Proof/Machine/Operands.lean ====
section
/-! DEFINITION. Operand forms: the destination field and its guard, the load guard, the effective address and the branch
target (30_encoding.md §2, 42_memory_access.md R370, 43_control.md R400, 60_exceptions.md R454). -/

namespace Sys2Proof.Machine

/-- `dest = zext(w[DEST_FIELD_BITS-1:0])` from the low field (30_encoding.md R205). -/
def destField (cfg : Config) (low : Nat) : Nat := low % 2 ^ cfg.destFieldBits.width

/-- `check_dest` (60_exceptions.md R454, R455): the register the destination field names, or the cause to raise. -/
def checkDest (cfg : Config) (low : Nat) : Except Cause RegIdx :=
  if destField cfg low = 0 then .error .destZero
  else if h : destField cfg low < 8 then .ok ⟨destField cfg low, h⟩
  else .error .destRange

/-- `lw_guard_field`: the same bits as `dest`, from the offset they also encode (30_encoding.md R206). -/
def loadGuardField (cfg : Config) (offset : Int) : Nat := (offset % (2 ^ cfg.destFieldBits.width : Nat)).toNat

/-- `ea = sint32(x[regA]) + offset`, an integer, not wrapped (42_memory_access.md R370). -/
def effectiveAddress (s : State) (regA : RegIdx) (offset : Int) : Int := sint32 (s.reg regA) + offset

/-- `pc + 1 + offset`, an integer, not wrapped (43_control.md R400). -/
def branchTarget (s : State) (offset : Int) : Int := s.pc + 1 + offset

end Sys2Proof.Machine
end

