-- ==== Sys2Proof/Machine/Control.lean ====
section
/-! DEFINITION. The control instructions `beq`, `halt`, `noop` (43_control.md). -/

namespace Sys2Proof.Machine

/-- `beq` (R400): a target outside memory is stored and faults at the next fetch (60_exceptions.md R452). -/
def execBeq (regA regB : RegIdx) (offset : Int) (s : State) : Host.Outcome State Fault Refusal :=
  if samePattern (s.reg regA) (s.reg regB) then .next (s.setPc (branchTarget s offset)) else .next s.advancePc

/-- `halt` (R410): the pc ends one past the `halt`; nothing is written back (20_memory.md R170). -/
def execHalt (s : State) : Host.Outcome State Fault Refusal := .next s.advancePc.setHalted

/-- `noop` (R420). -/
def execNoop (s : State) : Host.Outcome State Fault Refusal := .next s.advancePc

end Sys2Proof.Machine
end

