-- ==== Sys2Proof/Machine/Cache.lean ====
section
/-! DEFINITION. The cache: address decomposer, lookup, slot choice, fill, LRU victim, write-back arbiter and the access
transaction (20_memory.md R110 to R145), and the processor view (R165). -/

namespace Sys2Proof.Machine

/-- Where an address lives in the cache (R110). -/
structure Place where
  tag : Nat
  setIndex : Nat
  offset : Nat
deriving DecidableEq, Repr

/-- `decompose(a)` (R110). -/
def decompose (cfg : Config) (a : Nat) : Place where
  tag := a >>> (cfg.offsetBits + cfg.indexBits)
  setIndex := a / cfg.blockSize % cfg.numSets
  offset := a % cfg.blockSize

/-- `block_head(a)` (R112). -/
def blockHead (cfg : Config) (a : Nat) : Nat := a / cfg.blockSize * cfg.blockSize

/-- The last address of the extent that begins at `h` (R112). -/
def extentLast (cfg : Config) (h : Nat) : Nat := h + cfg.blockSize - 1

/-- The block holds the memory block with this tag (R118). -/
def Block.holds (b : Block) (tag : Nat) : Bool := b.valid && b.tag == tag

/-- Set `i`; a state whose arrays lack it answers the empty set (unreachable, log 11). -/
def State.cacheSet (s : State) (i : Nat) : List Block := s.cache.getD i []

/-- `cache[i][j]`; a state whose arrays lack it answers an invalid block (unreachable, log 11). -/
def State.block (s : State) (i j : Nat) : Block := (s.cacheSet i).getD j (Block.invalid s.cfg)

/-- `cache[i][j] <- b`. -/
def State.setBlock (s : State) (i j : Nat) (b : Block) : State :=
  { s with cache := s.cache.set i ((s.cacheSet i).set j b) }

/-- `lookup(i, t)`: a slot of the set that holds the tag, or none (R118). -/
def State.lookup (s : State) (i tag : Nat) : Option Nat := (s.cacheSet i).findIdx? fun b => b.holds tag

/-- The lowest-numbered slot that is not valid (R130). -/
def firstInvalid (set : List Block) : Option Nat := set.findIdx? fun b => !b.valid

/-- `victim`: the lowest-numbered slot among those with the smallest timestamp (R135). -/
def victim (set : List Block) : Nat := set.findIdx fun b => set.all fun c => decide (b.ts ≤ c.ts)

/-- `evict(i, j)`, the write-back arbiter (R136): a dirty block goes to memory, a clean one nowhere. -/
def State.evict (s : State) (i j : Nat) : State :=
  let b := s.block i j
  if b.dirty then
    (({ s with mem := s.mem.writeBlock b.memHead b.lines }).emit .cacheToMemory b.memHead
      (extentLast s.cfg b.memHead)).setBlock i j { b with dirty := false, valid := false }
  else
    (s.emit .cacheToNowhere b.memHead (extentLast s.cfg b.memHead)).setBlock i j { b with valid := false }

/-- `choose_slot(i)` (R130): an invalid slot, or the victim's after its eviction. -/
def State.chooseSlot (s : State) (i : Nat) : Nat × State :=
  match firstInvalid (s.cacheSet i) with
  | some j => (j, s)
  | none => (victim (s.cacheSet i), s.evict i (victim (s.cacheSet i)))

/-- The block a fill installs for the address `a` (R131), its lines as memory holds them. -/
def filledBlock (s : State) (a c : Nat) : Block where
  valid := true
  dirty := false
  tag := (decompose s.cfg a).tag
  ts := c
  memHead := blockHead s.cfg a
  lines := s.mem.readBlock (blockHead s.cfg a) s.cfg.blockSize

/-- `fill(i, j, a, t, C)` (R131). -/
def State.fill (s : State) (i j a c : Nat) : State :=
  (s.emit .memoryToCache (blockHead s.cfg a) (extentLast s.cfg (blockHead s.cfg a))).setBlock i j (filledBlock s a c)

/-- The lookup of an access and, on a miss, the slot choice and the fill: the slot that now holds `a` (R119). -/
def State.locate (s : State) (a : Nat) : Nat × State :=
  match s.lookup (decompose s.cfg a).setIndex (decompose s.cfg a).tag with
  | some j => (j, s)
  | none =>
    let r := s.chooseSlot (decompose s.cfg a).setIndex
    (r.1, r.2.fill (decompose s.cfg a).setIndex r.1 a s.accessCounter)

/-- The completion of an access on the slot `j` that holds `a`: timestamp, word, event, counter (R119). The word
answered is the one read; a write answers the word it stored. -/
def State.complete (s : State) (a j : Nat) (op : AccessOp) : Word × State :=
  let p := decompose s.cfg a
  let b := s.block p.setIndex j
  let next := s.accessCounter + 1
  match op with
  | .read =>
    (b.lines.getD p.offset 0,
      { (s.setBlock p.setIndex j { b with ts := s.accessCounter }).emit .cacheToProcessor a a with
        accessCounter := next })
  | .write v =>
    (v,
      { (s.setBlock p.setIndex j
            { b with ts := s.accessCounter, lines := b.lines.set p.offset v, dirty := true }).emit
          .processorToCache a a with
        accessCounter := next })

/-- The transaction on an address inside memory (R119, after the bounds check). -/
def State.accessInRange (s : State) (a : Nat) (op : AccessOp) : Word × State :=
  let r := s.locate a
  r.2.complete a r.1 op

/-- The bounds check of R145: `a` is an address of the memory. -/
abbrev InRange (cfg : Config) (a : Int) : Prop := 0 ≤ a ∧ a < (cfg.memWords : Int)

/-- `Access(a, op, v, cause)` (R119): the bounds check is the first action and changes nothing else (R145). -/
def State.access (s : State) (a : Int) (op : AccessOp) (cause : Cause) : AccessResult :=
  if InRange s.cfg a then
    let r := s.accessInRange a.toNat op
    .done r.1 r.2
  else .fatal (s.raiseFatal cause (some a))

/-- `CacheRead(a, cause)` (R120). -/
def State.cacheRead (s : State) (a : Int) (cause : Cause) : AccessResult := s.access a .read cause

/-- `CacheWrite(a, v, cause)` (R125). -/
def State.cacheWrite (s : State) (a : Int) (v : Word) (cause : Cause) : AccessResult := s.access a (.write v) cause

/-- The processor view of an address (R165): the cached word where a block holds the address, else memory's. -/
def State.view (s : State) (a : Nat) : Word :=
  match s.lookup (decompose s.cfg a).setIndex (decompose s.cfg a).tag with
  | some j => (s.block (decompose s.cfg a).setIndex j).lines.getD (decompose s.cfg a).offset 0
  | none => s.mem.read a

end Sys2Proof.Machine
end

