-- ==== Sys2Proof/Machine/MemoryAccess.lean ====
section
/-! DEFINITION. The memory instructions `lw`, `sw` (42_memory_access.md). -/

namespace Sys2Proof.Machine

/-- `lw` (R350): the guard is on the low field and not on `regB`, and comes before the access. -/
def execLw (regA regB : RegIdx) (offset : Int) (s : State) : Host.Outcome State Fault Refusal :=
  if loadGuardField s.cfg offset = 0 then .next (s.raiseFatal .destZero none)
  else
    match s.cacheRead (effectiveAddress s regA offset) .dataBounds with
    | .fatal t => .next t
    | .done v t => .next (t.setReg regB v).advancePc

/-- `sw` (R360): no guard. -/
def execSw (regA regB : RegIdx) (offset : Int) (s : State) : Host.Outcome State Fault Refusal :=
  match s.cacheWrite (effectiveAddress s regA offset) (s.reg regB) .dataBounds with
  | .fatal t => .next t
  | .done _ t => .next t.advancePc

end Sys2Proof.Machine
end

