-- ==== Sys2Proof/Machine/Register.lean ====
section
/-! DEFINITION. The register instructions `add`, `nand`, `cmov` (41_register.md). -/

namespace Sys2Proof.Machine

/-- The sum modulo 2^32 (R300, R330). -/
def sumWord (a b : Word) : Word := wrap32 (sint32 a + sint32 b)

/-- Bitwise NOT of AND (R310). -/
def nandWord (a b : Word) : Word := ~~~(a &&& b)

/-- `x[dest] <- v`, `pc <- pc + 1` behind `check_dest` (60_exceptions.md R454): the shared shape of R300 and R310. -/
def writeGuarded (low : Nat) (v : Word) (s : State) : State :=
  match checkDest s.cfg low with
  | .error cause => s.raiseFatal cause none
  | .ok dest => (s.setReg dest v).advancePc

/-- `add` (R300). -/
def execAdd (regA regB : RegIdx) (low : Nat) (s : State) : Host.Outcome State Fault Refusal :=
  .next (writeGuarded low (sumWord (s.reg regA) (s.reg regB)) s)

/-- `nand` (R310). -/
def execNand (regA regB : RegIdx) (low : Nat) (s : State) : Host.Outcome State Fault Refusal :=
  .next (writeGuarded low (nandWord (s.reg regA) (s.reg regB)) s)

/-- `cmov` (R320): the guard is tested whatever the condition; a false condition writes no register. -/
def execCmov (regA regB : RegIdx) (low : Nat) (s : State) : Host.Outcome State Fault Refusal :=
  match checkDest s.cfg low with
  | .error cause => .next (s.raiseFatal cause none)
  | .ok dest =>
    if nonZeroPattern (s.reg regB) then .next (s.setReg dest (s.reg regA)).advancePc
    else .next s.advancePc

end Sys2Proof.Machine
end

