-- ==== Sys2Proof/Machine/Engine.lean ====
section
/-! DEFINITION. What surrounds `execute` in a step: the fetch and the count (40_engine.md R251). -/

namespace Sys2Proof.Machine

/-- Keep the word of the step in progress, for a fault record (log 5). -/
def State.setFetched (s : State) (w : Option Word) : State := { s with fetched := w }

/-- `w <- CacheRead(pc, FETCH_BOUNDS)` (R251); a bounds fault records no word (60_exceptions.md R451). -/
def State.fetch (s : State) : AccessResult :=
  match (s.setFetched none).cacheRead s.pc .fetchBounds with
  | .done w t => .done w (t.setFetched (some w))
  | .fatal t => .fatal t

/-- The end of a step: `icount <- icount + 1` unless the step raised a fatal condition (R251, 10_state.md R57). -/
def State.retire (s : State) : State :=
  match s.status with
  | .faulted _ => s.setFetched none
  | _ => { s.setFetched none with icount := s.icount + 1 }

/-- `retire` on the outcome of an instruction. -/
def retireOutcome : Host.Outcome State Fault Refusal → Host.Outcome State Fault Refusal
  | .next s => .next s.retire
  | .fault r => .fault r
  | .refused r => .refused r

/-- The state in which the very next step fetches the word `w`: it stands for a program load (70_reset_and_hazards.md
R501, log 10). The pc and the status are kept where a fetch can use them; the word is put where the fetch reads it,
in the block that holds the address where there is one, and in memory unless that block is dirty. -/
def State.placeWord (s : State) (w : Word) : State :=
  let pc : Int := if InRange s.cfg s.pc then s.pc else 0
  let a := pc.toNat
  let p := decompose s.cfg a
  let ready := { s with pc := pc, status := .running }
  match s.lookup p.setIndex p.tag with
  | none => { ready with mem := s.mem.write a w }
  | some j =>
    let b := s.block p.setIndex j
    let cached := ready.setBlock p.setIndex j { b with lines := b.lines.set p.offset w }
    if b.dirty then cached else { cached with mem := s.mem.write a w }

end Sys2Proof.Machine
end

