-- ==== Sys2Proof/Machine/Step.lean ====
section
/-! DEFINITION. One step of the engine (40_engine.md R250, R251). -/

namespace Sys2Proof.Machine

/-- Fetch, decode, execute, count, while `Running`; no step exists from `Halted` or `Faulted` (R250, log 3). -/
def step (s : State) : Host.Outcome State Fault Refusal :=
  match s.status with
  | .halted => .fault .halted
  | .faulted record => .fault (.aborted record)
  | .running =>
    match s.fetch with
    | .fatal t => .next t
    | .done w t => retireOutcome (exec (decode w) t)

/-- The state whose next step fetches the instruction with these bits (log 10). -/
def State.withFetchWord (s : State) (nbits w : Nat) : State := s.placeWord (tableWord nbits w)

end Sys2Proof.Machine
end

