-- ==== Sys2Proof/Machine/Report.lean ====
section
/-! DEFINITION. What the outside world reads: the trace lines (20_memory.md R151, R152), the completion report
(70_reset_and_hazards.md R510) and the diagnostic of a fatal condition (60_exceptions.md R450, R451). -/

namespace Sys2Proof.Machine

/-- The spec's code of a cause (60_exceptions.md R450). -/
def Cause.code : Cause → Nat
  | .configArgs => 1
  | .configFile => 2
  | .configGeometry => 3
  | .configProgramSize => 4
  | .formatLine => 5
  | .fetchBounds => 16
  | .dataBounds => 17
  | .destZero => 18
  | .destRange => 19

/-- The cause's name in a diagnostic (60_exceptions.md R450, R451). -/
def Cause.name : Cause → String
  | .configArgs => "CONFIG_ARGS"
  | .configFile => "CONFIG_FILE"
  | .configGeometry => "CONFIG_GEOMETRY"
  | .configProgramSize => "CONFIG_PROGRAM_SIZE"
  | .formatLine => "FORMAT_LINE"
  | .fetchBounds => "FETCH_BOUNDS"
  | .dataBounds => "DATA_BOUNDS"
  | .destZero => "DEST_ZERO"
  | .destRange => "DEST_RANGE"

/-- The source and destination words of a trace line (20_memory.md R152). -/
def EventKind.route (cfg : Config) : EventKind → String
  | .cacheToProcessor => "from the cache to the processor"
  | .processorToCache => "from the processor to the cache"
  | .memoryToCache => "from the memory to the cache"
  | .cacheToMemory => "from the cache to the memory"
  | .cacheToNowhere => "from the cache to " ++ cfg.traceNowhere.text

/-- The text line of an event (20_memory.md R151). -/
def Event.line (cfg : Config) (e : Event) : String :=
  "@@@ transferring word [" ++ toString e.first ++ "-" ++ toString e.last ++ "] " ++ e.kind.route cfg

/-- The trace lines reported so far, in the order the events were emitted (20_memory.md R151). -/
def State.traceLines (s : State) : List String := s.trace.map fun e => e.line s.cfg

/-- The completion report (70_reset_and_hazards.md R510). -/
structure Report where
  regs : List Int
  /-- `mem[a]` for `a` in `[0, N)`, from the memory image and not the cache -/
  mem : List Int
  pc : Int
  icount : Nat
deriving DecidableEq, Repr

/-- A fatal condition as the host shows it: a cause and a non-zero exit status (60_exceptions.md R451). -/
structure Diagnostic where
  cause : Cause
  exitStatus : Nat
deriving DecidableEq, Repr

/-- The exit status is some non-zero number (93_implementation_defined.md U18; free value, log 8). -/
def diagnose (cause : Cause) : Diagnostic := ⟨cause, Config.exitStatusLessOne cause.code + 1⟩

/-- The report is produced at `Halted` only (70_reset_and_hazards.md R510). -/
def State.report (s : State) : Option Report :=
  match s.status with
  | .halted => some ⟨s.regs.toList.map sint32, (s.mem.readBlock 0 s.populated).map sint32, s.pc, s.icount⟩
  | _ => none

/-- The diagnostic is produced at `Faulted` only (40_engine.md R256). -/
def State.diagnostic (s : State) : Option Diagnostic :=
  match s.status with
  | .faulted record => some (diagnose record.cause)
  | _ => none

end Sys2Proof.Machine
end

