-- ==== Sys2Proof/Machine/Boot.lean ====
section
/-! DEFINITION. What the host does before the first step: the configuration checks, the program input and its load
(70_reset_and_hazards.md R500 to R507). -/

namespace Sys2Proof.Machine

/-- Text, as the host reads it. -/
abbrev Text := List Char

/-- A space or a tab (R506). -/
def isBlank (c : Char) : Bool := c == ' ' || c == '\t'

/-- Remove leading and trailing spaces and tabs (R506). -/
def trimBlanks (t : Text) : Text := ((t.dropWhile isBlank).reverse.dropWhile isBlank).reverse

/-- Remove one carriage return at the end of a line, or, where none stands there, one at its start (R506). -/
def trimReturn (t : Text) : Text :=
  if t.getLast? = some '\r' then t.dropLast
  else if t.head? = some '\r' then t.drop 1
  else t

/-- Remove leading and trailing spaces, tabs and a carriage return (R506): one carriage return of the line, no more.
DEDUCED: it may stand on either side of spaces and tabs (log 7). -/
def stripBlanks (t : Text) : Text := trimBlanks (trimReturn (trimBlanks t))

/-- The pieces between newlines. -/
def splitLines : Text → List Text
  | [] => [[]]
  | c :: rest =>
    if c = '\n' then [] :: splitLines rest
    else
      match splitLines rest with
      | [] => [[c]]
      | l :: ls => (c :: l) :: ls

/-- The lines of a file: a final newline ends the last line and starts no empty one (R506). -/
def programLines (t : Text) : List Text :=
  if (splitLines t).getLast? = some [] then (splitLines t).dropLast else splitLines t

/-- The value of a decimal digit. -/
def digitValue (c : Char) : Option Nat := if '0' ≤ c ∧ c ≤ '9' then some (c.toNat - '0'.toNat) else none

/-- Read the digits that follow the number read so far. -/
def parseDigitsFrom (n : Nat) : Text → Option Nat
  | [] => some n
  | c :: rest =>
    match digitValue c with
    | some d => parseDigitsFrom (10 * n + d) rest
    | none => none

/-- One or more decimal digits (R506). -/
def parseDigits (t : Text) : Option Nat := if t = [] then none else parseDigitsFrom 0 t

/-- An optional sign, then one or more decimal digits (R506). -/
def parseDecimal : Text → Option Int
  | '+' :: ds => (parseDigits ds).map fun n => (n : Int)
  | '-' :: ds => (parseDigits ds).map fun n => -(n : Int)
  | ds => (parseDigits ds).map fun n => (n : Int)

/-- The word of a valid line: blanks removed, an integer, in `[-2^31, 2^31 - 1]` (R506). -/
def parseLine (line : Text) : Option Word :=
  match parseDecimal (stripBlanks line) with
  | some i => if -(2 ^ 31) ≤ i ∧ i ≤ 2 ^ 31 - 1 then some (wrap32 i) else none
  | none => none

/-- The program input (R506). DESIGN CHOICE, unsafe: a file with an invalid line and too many lines is `FORMAT_LINE`;
the spec gives these two no order (log 7). -/
def parseProgram (memWords : Nat) (t : Text) : Except Cause (List Word) :=
  match (programLines t).mapM parseLine with
  | none => .error .formatLine
  | some ws => if memWords < ws.length then .error .configProgramSize else .ok ws

/-- A configuration argument: a decimal integer `>= 1` (R504 item 2). PRESUMED, unsafe: in the grammar of R506,
without blanks (log 7). -/
def parseArgument (t : Text) : Option Nat :=
  match parseDecimal t with
  | some i => if 1 ≤ i then some i.toNat else none
  | none => none

/-- R504 items 3 and 4: powers of two, and blocks that tile the memory. -/
abbrev GeometryFits (blockSize numSets memWords : Nat) : Prop :=
  (IsPowerOfTwo blockSize ∧ IsPowerOfTwo numSets) ∧ blockSize ≤ memWords ∧ memWords % blockSize = 0

/-- R504 items 1 to 4: the program-input path and the configuration, the other parameters taken from `params` (R505). -/
def checkArguments (params : Config) : List Text → Except Cause (Text × Config)
  | [path, size, sets, ways] =>
    match parseArgument size, parseArgument sets, parseArgument ways with
    | some b, some n, some k =>
      if GeometryFits b n params.memWords then
        .ok (path, { params with blockSize := b, numSets := n, blocksPerSet := k })
      else .error .configGeometry
    | _, _, _ => .error .configGeometry
  | _ => .error .configArgs

/-- The program load: words at address 0 onwards, past the cache, no event, no counter advance (R501). -/
def State.loadProgram (s : State) (ws : List Word) : State :=
  { s with mem := s.mem.writeBlock 0 ws, populated := ws.length }

/-- From the four arguments to the state before the first step, or the host fault (R500, R504, R506). What reading the
program-input path gives is an argument: none where the file cannot be read (R504 item 5). -/
def boot (params : Config) (args : List Text) (readFile : Text → Option Text) : Except Cause State :=
  match checkArguments params args with
  | .error cause => .error cause
  | .ok (path, cfg) =>
    match readFile path with
    | none => .error .configFile
    | some text =>
      match parseProgram cfg.memWords text with
      | .error cause => .error cause
      | .ok ws => .ok ((State.initial cfg).loadProgram ws)

end Sys2Proof.Machine
end

