-- ==== Sys2Proof/Safety.lean ====
section
/-! DEFINITION. The invariants of the block in the terms the statements use (20_memory.md R141, R146 to R148,
60_exceptions.md R451). -/

namespace Sys2Proof.Machine

/-- The arrays have the configured shape (10_state.md R61, R62). -/
abbrev State.CacheShape (s : State) : Prop :=
  s.cache.length = s.cfg.numSets ∧
    ∀ set ∈ s.cache, set.length = s.cfg.blocksPerSet ∧ ∀ b ∈ set, b.lines.length = s.cfg.blockSize

/-- Every valid block's head is where its tag and set put it, inside memory (20_memory.md R148, 10_state.md R62). -/
abbrev State.BlockHeads (s : State) : Prop :=
  ∀ i < s.cfg.numSets, ∀ j < s.cfg.blocksPerSet, (s.block i j).valid = true →
    (s.block i j).memHead = (s.block i j).tag * s.cfg.blockSize * s.cfg.numSets + i * s.cfg.blockSize ∧
      (s.block i j).memHead < s.cfg.memWords

/-- No set holds two valid blocks with the same tag (20_memory.md R146). -/
abbrev State.TagUnique (s : State) : Prop :=
  ∀ i < s.cfg.numSets, ∀ j < s.cfg.blocksPerSet, ∀ k < s.cfg.blocksPerSet,
    (s.block i j).valid = true → (s.block i k).valid = true → (s.block i j).tag = (s.block i k).tag → j = k

/-- Every valid block's timestamp is of an access already made (20_memory.md R140). -/
abbrev State.StampsBelow (s : State) : Prop :=
  ∀ i < s.cfg.numSets, ∀ j < s.cfg.blocksPerSet,
    (s.block i j).valid = true → (s.block i j).ts < s.accessCounter

/-- The valid blocks of a set have pairwise different timestamps (20_memory.md R141). -/
abbrev State.StampsDistinct (s : State) : Prop :=
  ∀ i < s.cfg.numSets, ∀ j < s.cfg.blocksPerSet, ∀ k < s.cfg.blocksPerSet,
    (s.block i j).valid = true → (s.block i k).valid = true → (s.block i j).ts = (s.block i k).ts → j = k

/-- Clean blocks agree with memory (20_memory.md R147). -/
abbrev State.CleanAgrees (s : State) : Prop :=
  ∀ i < s.cfg.numSets, ∀ j < s.cfg.blocksPerSet,
    (s.block i j).valid = true → (s.block i j).dirty = false →
      (s.block i j).lines = s.mem.readBlock (s.block i j).memHead s.cfg.blockSize

/-- The invariants of cache and memory other than those on timestamps. -/
structure State.Consistent (s : State) : Prop where
  legal : s.cfg.Legal
  shape : s.CacheShape
  memWf : s.mem.wf
  memInside : ∀ p ∈ s.mem, p.1 < s.cfg.memWords
  heads : s.BlockHeads
  tagUnique : s.TagUnique
  cleanAgrees : s.CleanAgrees

/-- The invariants of cache and memory, which hold inside a step as well. -/
structure State.Coherent (s : State) : Prop where
  consistent : s.Consistent
  stampsBelow : s.StampsBelow
  stampsDistinct : s.StampsDistinct

/-- What the record of a fatal condition in a run holds (60_exceptions.md R451): a cause a step can raise, the pc at
which the run stopped, a word unless the fetch was out of bounds, an address exactly for a bounds fault. -/
def FaultRecord.sound (r : FaultRecord) (pc : Int) : Bool :=
  r.pc == pc &&
    match r.cause with
    | .fetchBounds => r.word.isNone && r.addr == some pc
    | .dataBounds => r.word.isSome && r.addr.isSome
    | .destZero => r.word.isSome && r.addr.isNone
    | .destRange => r.word.isSome && r.addr.isNone
    | _ => false

/-- The record of a faulted state is sound. -/
def State.recordSound (s : State) : Bool :=
  match s.status with
  | .faulted r => r.sound s.pc
  | _ => true

/-- The invariant between steps. -/
structure State.Inv (s : State) : Prop where
  coherent : s.Coherent
  between : s.fetched = none
  record : s.recordSound = true
  /-- the loaded program fits the memory (70_reset_and_hazards.md R506) -/
  populatedInside : s.populated ≤ s.cfg.memWords

/-- The state a fatal condition leaves (60_exceptions.md R451): the record, and nothing else changed. -/
def State.faultedWith (s : State) (cause : Cause) (addr : Option Int) : State :=
  { s with status := .faulted ⟨cause, s.pc, s.fetched, addr⟩ }

/-- The run has ended in a fatal condition. -/
def State.isFaulted (s : State) : Bool :=
  match s.status with
  | .faulted _ => true
  | _ => false

/-- What no instruction writes: the configuration, the populated count, the instruction counter, and the word of the
step in progress. -/
structure SameFixed (s t : State) : Prop where
  cfg : t.cfg = s.cfg
  populated : t.populated = s.populated
  icount : t.icount = s.icount
  fetched : t.fetched = s.fetched

/-- Cache, memory image, access counter and trace are as they were: no access was made. -/
structure SameMemorySystem (s t : State) : Prop where
  cache : t.cache = s.cache
  mem : t.mem = s.mem
  accessCounter : t.accessCounter = s.accessCounter
  trace : t.trace = s.trace

/-- What a program can observe of a state: registers, pc, status, count, the capacity and the destination width, and the
view of every address (10_state.md R67). Nothing of the cache. -/
structure SameArchitecture (s t : State) : Prop where
  regs : t.regs = s.regs
  pc : t.pc = s.pc
  status : t.status = s.status
  icount : t.icount = s.icount
  memWords : t.cfg.memWords = s.cfg.memWords
  destFieldBits : t.cfg.destFieldBits = s.cfg.destFieldBits
  view : ∀ a < s.cfg.memWords, t.view a = s.view a

/-- The block of `a` is in the cache and dirty. -/
def State.HeldDirty (s : State) (a : Nat) : Prop :=
  ∃ j < s.cfg.blocksPerSet, (s.block (decompose s.cfg a).setIndex j).valid = true ∧
    (s.block (decompose s.cfg a).setIndex j).tag = (decompose s.cfg a).tag ∧
    (s.block (decompose s.cfg a).setIndex j).dirty = true

/-- The event of evicting a block (20_memory.md R136). -/
def Block.evictionEvent (b : Block) (blockSize : Nat) : Event :=
  ⟨if b.dirty then .cacheToMemory else .cacheToNowhere, b.memHead, b.memHead + blockSize - 1⟩

/-- The events of one access to an address of the memory, in order (20_memory.md R153; the eviction before the fill is
decision D12): none but the last on a hit; on a miss the fill's before it, and before that, where every slot of the set
is valid, the eviction's. -/
def State.accessEvents (s : State) (a : Nat) (op : AccessOp) : List Event :=
  let p := decompose s.cfg a
  let set := s.cacheSet p.setIndex
  let evicted := if set.all (·.valid) then [(s.block p.setIndex (victim set)).evictionEvent s.cfg.blockSize] else []
  let filled := ⟨.memoryToCache, blockHead s.cfg a, blockHead s.cfg a + s.cfg.blockSize - 1⟩
  let moved := match op with
    | .read => ⟨.cacheToProcessor, a, a⟩
    | .write _ => ⟨.processorToCache, a, a⟩
  (if (s.lookup p.setIndex p.tag).isSome then [] else evicted ++ [filled]) ++ [moved]

/-- The events of the data access of an instruction that completes from this state: one access for `lw` and `sw`, none
for the other six (40_engine.md R255, 42_memory_access.md R370). -/
def State.dataEvents (s : State) : Instr → List Event
  | .lw regA _ offset => s.accessEvents (sint32 (s.reg regA) + offset).toNat .read
  | .sw regA regB offset => s.accessEvents (sint32 (s.reg regA) + offset).toNat (.write (s.reg regB))
  | .add _ _ _ => []
  | .nand _ _ _ => []
  | .beq _ _ _ => []
  | .cmov _ _ _ => []
  | .halt => []
  | .noop => []

/-- The state as the engine leaves it at the end of a completed step (40_engine.md R251). -/
def State.counted (s : State) : State := { s with icount := s.icount + 1, fetched := none }

end Sys2Proof.Machine
end

