-- ==== Sys2Proof/Certificates/Slice0/Obligations.lean ====
section
/-! DEFINITION. The statements for the provers. A docstring says which rule of spec/ a statement formalises; where a
clause rests on a decision the spec marks as its own (92_eei_decisions.md D<n>), or on a choice of the model's (log n),
it says so. -/

open Sys2Proof Sys2Proof.Machine

/-! ## Encoding -/

/-- 30_encoding.md R210, R211: decoding the word of a well-formed instruction gives it back, for every instruction and
every operand. The opcode numbers are the spec's decision D2. -/
def Obligations.DecodeInvertsEncode : Prop :=
  ∀ i : Instr, i.wellFormed = true → decode (encode i) = i

/-- 30_encoding.md R204, R205, R209: every word decodes, and to an instruction whose operands are in range. -/
def Obligations.DecodedInstructionIsWellFormed : Prop :=
  ∀ w : Word, (decode w).wellFormed = true

/-- 30_encoding.md R203 (decision D4): decode reads `w[24:0]` alone; and of a word whose opcode is that of `halt` or
`noop` it reads the opcode alone. -/
def Obligations.DecodeIgnoresUnusedBits : Prop :=
  (∀ w v : Word, w.toNat % 2 ^ 25 = v.toNat % 2 ^ 25 → decode w = decode v) ∧
    ∀ w v : Word, w.toNat / 2 ^ 22 % 2 ^ 3 = v.toNat / 2 ^ 22 % 2 ^ 3 → 6 ≤ w.toNat / 2 ^ 22 % 2 ^ 3 →
      decode w = decode v

/-- 30_encoding.md R201, R211: a word of bits 24..0 alone, other than a `halt` or `noop` with ignored bits, is the word
of the instruction it decodes to: no bit is dropped. -/
def Obligations.EncodeInvertsDecode : Prop :=
  ∀ w : Word, w.toNat < 2 ^ 25 → w.toNat / 2 ^ 22 < 6 → encode (decode w) = w

/-- 30_encoding.md R208 (decision D2): a word selects its instruction by `w & 0x01C00000 = opcode << 22`. -/
def Obligations.MaskedWordSelectsOpcode : Prop :=
  ∀ w : Word, w &&& 0x01C00000#32 = BitVec.ofNat 32 (opcodeValue (decode w).opcode * 2 ^ 22)

/-- Every word of 95_test_vectors.md Part 2, the encoding table and the corner words, decodes as that part says (opcode
numbers and ignored bits: decisions D2, D4). -/
def Obligations.SpecWordsDecode : Prop :=
  (decode 1 = .add 0 0 1 ∧ decode 655363 = .add 1 2 3 ∧ decode 4849667 = .nand 1 2 3 ∧ decode 4784129 = .nand 1 1 1 ∧
    decode 9043972 = .lw 1 2 4 ∧ decode 9043968 = .lw 1 2 0 ∧ decode 10256384 = .lw 3 4 (-32768) ∧
    decode 13303807 = .sw 1 2 (-1) ∧ decode 12943359 = .sw 0 5 32767 ∧ decode 17498109 = .beq 1 2 (-3) ∧
    decode 16842751 = .beq 0 0 (-1) ∧ decode 17367042 = .beq 1 1 2 ∧ decode 21626883 = .cmov 1 2 3 ∧
    decode 21495808 = .cmov 1 0 0 ∧ decode 25165824 = .halt ∧ decode 29360128 = .noop) ∧
  decode 0 = .add 0 0 0 ∧ decode (wrap32 (-1)) = .noop ∧ decode (wrap32 (-33554432)) = .add 0 0 0 ∧
    decode 58720256 = .halt ∧ decode 65535 = .add 0 0 65535 ∧ decode 8454152 = .lw 0 1 8

/-! ## Address decomposer and cache -/

/-- 20_memory.md R111, R113: the decomposition loses nothing, its parts are in range, the tag is the quotient, and two
addresses have one tag and set exactly when they have one block head. -/
def Obligations.DecomposeRoundTrips : Prop :=
  ∀ c : Config, c.Legal →
    (∀ a, (decompose c a).tag * c.blockSize * c.numSets + (decompose c a).setIndex * c.blockSize +
        (decompose c a).offset = a ∧
      (decompose c a).setIndex < c.numSets ∧ (decompose c a).offset < c.blockSize ∧
      (decompose c a).tag = a / (c.blockSize * c.numSets)) ∧
    ∀ a b, ((decompose c a).tag = (decompose c b).tag ∧ (decompose c a).setIndex = (decompose c b).setIndex) ↔
      blockHead c a = blockHead c b

/-- 20_memory.md R112: the extent of every address of the memory lies in the memory. -/
def Obligations.BlockExtentInsideMemory : Prop :=
  ∀ c : Config, c.Legal → ∀ a < c.memWords,
    blockHead c a ≤ a ∧ a ≤ extentLast c (blockHead c a) ∧ extentLast c (blockHead c a) < c.memWords ∧
      blockHead c a % c.blockSize = 0

/-- 20_memory.md R165: a read answers the view of its address and leaves every view as it was. -/
def Obligations.CacheReadAnswersView : Prop :=
  ∀ (s : State) (a : Nat) (cause : Cause), s.Coherent → a < s.cfg.memWords →
    ∃ t, s.cacheRead a cause = .done (s.view a) t ∧ (∀ b, t.view b = s.view b) ∧ t.Coherent

/-- 20_memory.md R165, R126, R127: a write sets the view of its address, leaves every other view, and leaves the block of
the address in the cache and dirty. -/
def Obligations.CacheWriteSetsView : Prop :=
  ∀ (s : State) (a : Nat) (v : Word) (cause : Cause), s.Coherent → a < s.cfg.memWords →
    ∃ w t, s.cacheWrite a v cause = .done w t ∧ (∀ b, t.view b = if b = a then v else s.view b) ∧
      t.HeldDirty a ∧ t.Coherent

/-- 20_memory.md R121: a read hit answers the word at the offset, refreshes the timestamp of the block it hits, emits one
`CacheToProcessor` event for the one word and advances the counter; no memory transfer, no other block changes. -/
def Obligations.ReadHitRefreshesAndAnswers : Prop :=
  ∀ (s : State) (a j : Nat) (cause : Cause), a < s.cfg.memWords →
    s.lookup (decompose s.cfg a).setIndex (decompose s.cfg a).tag = some j →
    s.cacheRead a cause =
      .done ((s.block (decompose s.cfg a).setIndex j).lines.getD (decompose s.cfg a).offset 0)
        { s with
          cache := s.cache.set (decompose s.cfg a).setIndex ((s.cacheSet (decompose s.cfg a).setIndex).set j
            { s.block (decompose s.cfg a).setIndex j with ts := s.accessCounter })
          trace := s.trace ++ [⟨.cacheToProcessor, a, a⟩]
          accessCounter := s.accessCounter + 1 }

/-- 20_memory.md R126: a write hit overwrites the word at the offset, sets dirty whatever the word was, refreshes the
timestamp and emits one `ProcessorToCache` event. -/
def Obligations.WriteHitOverwritesAndDirties : Prop :=
  ∀ (s : State) (a j : Nat) (v : Word) (cause : Cause), a < s.cfg.memWords →
    s.lookup (decompose s.cfg a).setIndex (decompose s.cfg a).tag = some j →
    ∃ w, s.cacheWrite a v cause =
      .done w
        { s with
          cache := s.cache.set (decompose s.cfg a).setIndex ((s.cacheSet (decompose s.cfg a).setIndex).set j
            { s.block (decompose s.cfg a).setIndex j with
              ts := s.accessCounter
              dirty := true
              lines := (s.block (decompose s.cfg a).setIndex j).lines.set (decompose s.cfg a).offset v })
          trace := s.trace ++ [⟨.processorToCache, a, a⟩]
          accessCounter := s.accessCounter + 1 }

/-- 20_memory.md R127, R131, R141: after a write miss the cache holds the block of the address, dirty, with the head of
the address, and its lines are memory's words over the extent except the one written. Every other block, its timestamp
too, is as it was. The slot, the order of eviction and fill, and the timestamp are decisions D10, D12, D23. -/
def Obligations.WriteMissAllocatesBlock : Prop :=
  ∀ (s : State) (a : Nat) (v : Word) (cause : Cause), s.Coherent → a < s.cfg.memWords →
    s.lookup (decompose s.cfg a).setIndex (decompose s.cfg a).tag = none →
    ∃ w t j, s.cacheWrite a v cause = .done w t ∧ j < s.cfg.blocksPerSet ∧
      t.block (decompose s.cfg a).setIndex j =
        { valid := true, dirty := true, tag := (decompose s.cfg a).tag, ts := s.accessCounter,
          memHead := blockHead s.cfg a,
          lines := (t.mem.readBlock (blockHead s.cfg a) s.cfg.blockSize).set (decompose s.cfg a).offset v } ∧
      ∀ k l, ¬(k = (decompose s.cfg a).setIndex ∧ l = j) → t.block k l = s.block k l

/-- 20_memory.md R122, R131, R141: after a read miss the cache holds the block of the address, clean, with memory's words
over its extent, and the word answered is memory's, as memory stands after any write-back of the same access. Every other
block, its timestamp too, is as it was. The slot, the order of eviction and fill, and the timestamp are decisions D10,
D12, D23. -/
def Obligations.ReadMissInstallsBlock : Prop :=
  ∀ (s : State) (a : Nat) (cause : Cause), s.Coherent → a < s.cfg.memWords →
    s.lookup (decompose s.cfg a).setIndex (decompose s.cfg a).tag = none →
    ∃ t j, s.cacheRead a cause = .done (t.mem.read a) t ∧ j < s.cfg.blocksPerSet ∧
      t.block (decompose s.cfg a).setIndex j =
        { valid := true, dirty := false, tag := (decompose s.cfg a).tag, ts := s.accessCounter,
          memHead := blockHead s.cfg a, lines := t.mem.readBlock (blockHead s.cfg a) s.cfg.blockSize } ∧
      ∀ k l, ¬(k = (decompose s.cfg a).setIndex ∧ l = j) → t.block k l = s.block k l

/-- 20_memory.md R128: no write, hit or miss, changes the memory image, and no read does; memory changes only by the
write-back of a dirty victim of a full set. -/
def Obligations.MemoryChangesOnlyByWriteBack : Prop :=
  ∀ (s t : State) (a : Int) (op : AccessOp) (cause : Cause) (w : Word), s.access a op cause = .done w t →
    t.mem = s.mem ∨
      ∃ i j, (∀ b ∈ s.cacheSet i, b.valid = true) ∧ s.lookup i (decompose s.cfg a.toNat).tag = none ∧
        i = (decompose s.cfg a.toNat).setIndex ∧ j = victim (s.cacheSet i) ∧ (s.block i j).dirty = true ∧
        t.mem = s.mem.writeBlock (s.block i j).memHead (s.block i j).lines

/-- 20_memory.md R135: a full set's victim is the slot that minimises (timestamp, slot number). -/
def Obligations.VictimIsLeastRecentlyUsed : Prop :=
  ∀ (s : State) (i : Nat), s.cacheSet i ≠ [] → (∀ b ∈ s.cacheSet i, b.valid = true) →
    (s.chooseSlot i).1 < (s.cacheSet i).length ∧
      ∀ k < (s.cacheSet i).length,
        (s.block i (s.chooseSlot i).1).ts < (s.block i k).ts ∨
          ((s.block i (s.chooseSlot i).1).ts = (s.block i k).ts ∧ (s.chooseSlot i).1 ≤ k)

/-- 20_memory.md R130 (decision D10), R137: a set with an invalid slot gives the lowest-numbered one and evicts
nothing. -/
def Obligations.InvalidSlotReusedFirst : Prop :=
  ∀ (s : State) (i j : Nat), j < (s.cacheSet i).length → (s.block i j).valid = false →
    (∀ k < j, (s.block i k).valid = true) → s.chooseSlot i = (j, s)

/-- 20_memory.md R136, R149: a dirty victim's lines go to memory over its extent and nowhere else, a clean victim leaves
memory alone; the one event is of the victim's kind and extent; the block ends invalid and clean, every other block
as it was. -/
def Obligations.EvictionWritesBackDirtyOnly : Prop :=
  ∀ (s : State) (i j : Nat), s.Coherent → i < s.cfg.numSets → j < s.cfg.blocksPerSet →
    (∀ b, (s.evict i j).mem.read b =
      if (s.block i j).dirty = true ∧ (s.block i j).memHead ≤ b ∧ b < (s.block i j).memHead + s.cfg.blockSize then
        (s.block i j).lines.getD (b - (s.block i j).memHead) 0
      else s.mem.read b) ∧
    ((s.block i j).dirty = false → (s.evict i j).mem = s.mem) ∧
    (s.evict i j).trace = s.trace ++ [⟨if (s.block i j).dirty then .cacheToMemory else .cacheToNowhere,
      (s.block i j).memHead, (s.block i j).memHead + s.cfg.blockSize - 1⟩] ∧
    (∀ k l, (s.evict i j).block k l =
      if k = i ∧ l = j then { s.block i j with dirty := false, valid := false } else s.block k l) ∧
    (s.evict i j).accessCounter = s.accessCounter

/-- 20_memory.md R153 (decision D12 for the eviction before the fill), R140: the events of one completed access by hit,
miss with an invalid slot, and miss to a full set with a clean or a dirty victim (`State.accessEvents` lists them), and
the one counter advance. -/
def Obligations.AccessEventsInOrder : Prop :=
  ∀ (s t : State) (a : Nat) (op : AccessOp) (cause : Cause) (w : Word), s.access a op cause = .done w t →
    t.accessCounter = s.accessCounter + 1 ∧ t.trace = s.trace ++ s.accessEvents a op

/-- 20_memory.md R145 (decision D14): an address outside memory ends the run with the caller's cause and changes nothing
else; and an access completes exactly on the addresses of the memory. -/
def Obligations.BoundsFaultChangesNothing : Prop :=
  ∀ (s : State) (a : Int) (op : AccessOp) (cause : Cause),
    ((a < 0 ∨ (s.cfg.memWords : Int) ≤ a) ↔ s.access a op cause = .fatal (s.faultedWith cause (some a))) ∧
      ((0 ≤ a ∧ a < (s.cfg.memWords : Int)) ↔ ∃ w t, s.access a op cause = .done w t)

/-- 20_memory.md R102, R165: a second read of an address answers the same word, is a hit, and emits one event. -/
def Obligations.SecondReadHits : Prop :=
  ∀ (s : State) (a : Nat) (cause : Cause), s.Coherent → a < s.cfg.memWords →
    ∃ w t u, s.cacheRead a cause = .done w t ∧ t.cacheRead a cause = .done w u ∧
      u.trace = t.trace ++ [⟨.cacheToProcessor, a, a⟩] ∧ u.mem = t.mem

/-! ## Results of the instructions -/

/-- 41_register.md R300, R330 (decisions D3, D6): `add` with a destination field of 1 to 7 writes the sum modulo 2^32
to it, moves the pc by one, and changes nothing else. -/
def Obligations.AddWritesSum : Prop :=
  ∀ (s : State) (regA regB dest : RegIdx) (low : Nat), destField s.cfg low = dest.val → dest ≠ 0 →
    exec (.add regA regB low) s =
      .next { s with regs := s.regs.set dest.val (s.reg regA + s.reg regB) dest.isLt, pc := s.pc + 1 }

/-- 41_register.md R310 (decision D3): `nand` with a destination field of 1 to 7 writes, bit by bit, NOT of AND. -/
def Obligations.NandWritesNotAnd : Prop :=
  ∀ (s : State) (regA regB dest : RegIdx) (low : Nat), destField s.cfg low = dest.val → dest ≠ 0 →
    ∃ v : Word, (∀ k < 32, v.getLsbD k = !((s.reg regA).getLsbD k && (s.reg regB).getLsbD k)) ∧
      exec (.nand regA regB low) s =
        .next { s with regs := s.regs.set dest.val v dest.isLt, pc := s.pc + 1 }

/-- 41_register.md R320 (decision D3): `cmov` with a destination field of 1 to 7 moves the word when the condition
register is not zero, writes no register when it is, and moves the pc by one. -/
def Obligations.CmovMovesOnNonZero : Prop :=
  ∀ (s : State) (regA regB dest : RegIdx) (low : Nat), destField s.cfg low = dest.val → dest ≠ 0 →
    exec (.cmov regA regB low) s =
      .next (if s.reg regB = 0 then { s with pc := s.pc + 1 }
        else { s with regs := s.regs.set dest.val (s.reg regA) dest.isLt, pc := s.pc + 1 })

/-- 42_memory_access.md R350, R370 (decisions D3, D7, D13): `lw` with a guard field other than 0 and an effective address
in memory loads the view of that address into `regB` (register 0 included), and moves the pc by one. Its cache, memory,
counter and events are those of one read access of that address (20_memory.md R153). Every other register, every view and
the rest of the engine stay. -/
def Obligations.LoadWritesView : Prop :=
  ∀ (s : State) (regA regB : RegIdx) (offset : Int) (a : Nat), s.Coherent →
    loadGuardField s.cfg offset ≠ 0 → sint32 (s.reg regA) + offset = (a : Int) → a < s.cfg.memWords →
    ∃ t, exec (.lw regA regB offset) s = .next t ∧ t.reg regB = s.view a ∧ (∀ q, q ≠ regB → t.reg q = s.reg q) ∧
      t.pc = s.pc + 1 ∧ t.status = s.status ∧ (∀ b, t.view b = s.view b) ∧ SameFixed s t ∧
      (∃ w u, s.cacheRead a .dataBounds = .done w u ∧ SameMemorySystem u t) ∧
      t.trace = s.trace ++ s.accessEvents a .read ∧ t.accessCounter = s.accessCounter + 1 ∧ t.Coherent

/-- 42_memory_access.md R360, R370 (decision D7): `sw` with an effective address in memory makes the view of that address
the word of `regB`, leaves its block dirty in the cache, and moves the pc by one. Its cache, memory, counter and events
are those of one write access of that address (20_memory.md R153). Every register, every other view and the rest of the
engine stay. No guard applies. -/
def Obligations.StoreSetsView : Prop :=
  ∀ (s : State) (regA regB : RegIdx) (offset : Int) (a : Nat), s.Coherent →
    sint32 (s.reg regA) + offset = (a : Int) → a < s.cfg.memWords →
    ∃ t, exec (.sw regA regB offset) s = .next t ∧ (∀ b, t.view b = if b = a then s.reg regB else s.view b) ∧
      t.HeldDirty a ∧ (∀ q, t.reg q = s.reg q) ∧ t.pc = s.pc + 1 ∧ t.status = s.status ∧ SameFixed s t ∧
      (∃ w u, s.cacheWrite a (s.reg regB) .dataBounds = .done w u ∧ SameMemorySystem u t) ∧
      t.trace = s.trace ++ s.accessEvents a (.write (s.reg regB)) ∧ t.accessCounter = s.accessCounter + 1 ∧
      t.Coherent

/-- 43_control.md R400 (decisions D7, D27): `beq` sets the pc to `pc + 1 + offset` when the two words are equal and to
`pc + 1` when they are not, inside memory or not, and changes nothing else. -/
def Obligations.BeqBranchesOnEqual : Prop :=
  ∀ (s : State) (regA regB : RegIdx) (offset : Int),
    exec (.beq regA regB offset) s =
      .next { s with pc := if s.reg regA = s.reg regB then s.pc + 1 + offset else s.pc + 1 }

/-- 43_control.md R410: `halt` sets the status to `Halted` and the pc one past the `halt`, writes nothing back (20_memory.md
R170, decision D15); its step completes, is counted, and is the last. -/
def Obligations.HaltEndsRun : Prop :=
  (∀ s : State, exec .halt s = .next { s with pc := s.pc + 1, status := .halted }) ∧
    ∀ (s u : State) (w : Word), s.status = .running → s.fetch = .done w u → decode w = .halt →
      ∃ t, step s = .next t ∧ t.status = .halted ∧ t.pc = s.pc + 1 ∧ t.icount = s.icount + 1 ∧ t.regs = s.regs ∧
        t.mem = u.mem ∧ t.cache = u.cache ∧ ∀ t', step t ≠ .next t'

/-- 43_control.md R420: the only effects of `noop` are the fetch access, the pc increment and the count. -/
def Obligations.NoopOnlyAdvances : Prop :=
  (∀ s : State, exec .noop s = .next { s with pc := s.pc + 1 }) ∧
    ∀ (s u : State) (w : Word), s.status = .running → s.fetch = .done w u → decode w = .noop →
      step s = .next { u with pc := s.pc + 1, icount := s.icount + 1, fetched := none }

/-! ## Where the instructions trap -/

/-- 60_exceptions.md R454, 41_register.md R320, 42_memory_access.md R350 (decision D13): a zero destination field takes
`DEST_ZERO` in `add`, `nand` and `cmov` (whatever the condition), a zero guard field takes it in `lw` (whatever the
address); nothing else changes. -/
def Obligations.DestZeroTraps : Prop :=
  ∀ (s : State) (regA regB : RegIdx),
    (∀ low, destField s.cfg low = 0 →
      exec (.add regA regB low) s = .next (s.faultedWith .destZero none) ∧
      exec (.nand regA regB low) s = .next (s.faultedWith .destZero none) ∧
      exec (.cmov regA regB low) s = .next (s.faultedWith .destZero none)) ∧
    ∀ offset, loadGuardField s.cfg offset = 0 →
      exec (.lw regA regB offset) s = .next (s.faultedWith .destZero none)

/-- 60_exceptions.md R455 (decision D3): a destination field of 8 or more takes `DEST_RANGE` in `add`, `nand` and `cmov`
(whatever the condition); with a 3-bit field it cannot happen. -/
def Obligations.DestRangeTraps : Prop :=
  ∀ (s : State) (regA regB : RegIdx) (low : Nat),
    (8 ≤ destField s.cfg low →
      exec (.add regA regB low) s = .next (s.faultedWith .destRange none) ∧
      exec (.nand regA regB low) s = .next (s.faultedWith .destRange none) ∧
      exec (.cmov regA regB low) s = .next (s.faultedWith .destRange none)) ∧
    (s.cfg.destFieldBits = .bits3 → destField s.cfg low < 8)

/-- 30_encoding.md R206 (decision D3): with a 16-bit field the load guard is zero exactly for the offset 0; with a 3-bit
field exactly for the multiples of 8. -/
def Obligations.LoadGuardReadsLowField : Prop :=
  ∀ (c : Config) (offset : Int), offsetInRange offset = true →
    (c.destFieldBits = .bits16 → (loadGuardField c offset = 0 ↔ offset = 0)) ∧
      (c.destFieldBits = .bits3 → (loadGuardField c offset = 0 ↔ offset % 8 = 0))

/-- 60_exceptions.md R453: an effective address outside memory takes `DATA_BOUNDS` in `lw` (past its guard) and `sw`, with
the pc, the fetched word and the address in the record; the fetch has completed and the data access makes no change. -/
def Obligations.DataBoundsTraps : Prop :=
  ∀ (s u : State) (w : Word) (regA regB : RegIdx) (offset ea : Int), s.status = .running → s.fetch = .done w u →
    ea = sint32 (s.reg regA) + offset → (ea < 0 ∨ (s.cfg.memWords : Int) ≤ ea) →
    ((decode w = .lw regA regB offset ∧ loadGuardField s.cfg offset ≠ 0) ∨ decode w = .sw regA regB offset) →
      step s = .next { u with status := .faulted ⟨.dataBounds, s.pc, some w, some ea⟩, fetched := none }

/-- 60_exceptions.md R452 (decision D27): a pc outside memory takes `FETCH_BOUNDS`, with the pc as pc and address and no
word in the record, and changes nothing else. -/
def Obligations.FetchBoundsTraps : Prop :=
  ∀ s : State, s.status = .running → (s.pc < 0 ∨ (s.cfg.memWords : Int) ≤ s.pc) →
    step s = .next { s with status := .faulted ⟨.fetchBounds, s.pc, none, some s.pc⟩, fetched := none }

/-! ## Frames -/

/-- Frame of `add`, `nand` and `cmov` (10_state.md R52, 41_register.md): only the register the destination field names may
change; a status that changes is a fatal condition; no access is made and every view stays. -/
def Obligations.RegisterInstructionsFrame : Prop :=
  ∀ (s t : State) (i : Instr) (regA regB : RegIdx) (low : Nat),
    (i = .add regA regB low ∨ i = .nand regA regB low ∨ i = .cmov regA regB low) → exec i s = .next t →
      (∀ q : RegIdx, q.val ≠ destField s.cfg low → t.reg q = s.reg q) ∧
      (t.status = s.status ∨ (t.isFaulted = true ∧ t.regs = s.regs ∧ t.pc = s.pc)) ∧
      SameFixed s t ∧ SameMemorySystem s t ∧ ∀ b, t.view b = s.view b

/-- Frame of `lw` (10_state.md R52, 20_memory.md R165): only `regB` may change; every view stays, and the memory image
too unless a dirty victim is written back; a status that changes is a fatal condition. -/
def Obligations.LoadFrame : Prop :=
  ∀ (s t : State) (regA regB : RegIdx) (offset : Int), s.Coherent → exec (.lw regA regB offset) s = .next t →
    (∀ q, q ≠ regB → t.reg q = s.reg q) ∧
    (t.status = s.status ∨ (t.isFaulted = true ∧ t.regs = s.regs ∧ t.pc = s.pc ∧ SameMemorySystem s t)) ∧
    SameFixed s t ∧ (∀ b, t.view b = s.view b) ∧
    ∀ b, t.mem.read b = s.mem.read b ∨ (t.mem.read b = s.view b ∧ s.HeldDirty b)

/-- Frame of `sw` (10_state.md R52, 20_memory.md R165): no register changes; every view stays but that of the effective
address; the memory image changes only where a dirty victim is written back; a status that changes is a fatal
condition. -/
def Obligations.StoreFrame : Prop :=
  ∀ (s t : State) (regA regB : RegIdx) (offset : Int), s.Coherent → exec (.sw regA regB offset) s = .next t →
    t.regs = s.regs ∧
    (t.status = s.status ∨ (t.isFaulted = true ∧ t.pc = s.pc ∧ SameMemorySystem s t)) ∧
    SameFixed s t ∧ (∀ b : Nat, (b : Int) ≠ effectiveAddress s regA offset → t.view b = s.view b) ∧
    ∀ b, t.mem.read b = s.mem.read b ∨ (t.mem.read b = s.view b ∧ s.HeldDirty b)

/-- Frame of `beq`, `halt` and `noop` (10_state.md R52): no register changes, no access is made, every view stays, and only
`halt` writes the status. -/
def Obligations.ControlInstructionsFrame : Prop :=
  ∀ (s t : State) (i : Instr), i.opcode = .beq ∨ i.opcode = .halt ∨ i.opcode = .noop → exec i s = .next t →
    t.regs = s.regs ∧ (i ≠ .halt → t.status = s.status) ∧ SameFixed s t ∧ SameMemorySystem s t ∧
      ∀ b, t.view b = s.view b

/-! ## The step -/

/-- 40_engine.md R251: a running engine whose pc is in memory fetches the view of the pc and answers the execution of the
instruction it decodes to, counted unless that ended in a fatal condition. The fetch keeps registers, pc, every view and
the invariants. -/
def Obligations.StepRunsDecodedInstruction : Prop :=
  ∀ s : State, s.Coherent → s.status = .running → 0 ≤ s.pc → s.pc < (s.cfg.memWords : Int) →
    ∃ u v, s.fetch = .done (s.view s.pc.toNat) u ∧ u.fetched = some (s.view s.pc.toNat) ∧ u.regs = s.regs ∧
      u.pc = s.pc ∧ u.status = .running ∧ (∀ b, u.view b = s.view b) ∧ u.Coherent ∧
      exec (decode (s.view s.pc.toNat)) u = .next v ∧
      step s = .next (if v.isFaulted then { v with fetched := none } else v.counted)

/-- 10_state.md R55, 40_engine.md R250: a step exists exactly while the status is `Running`. The model says so by a fault
in the terminal states (log 3). -/
def Obligations.StepExistsExactlyWhileRunning : Prop :=
  ∀ s : State, (∃ t, step s = .next t) ↔ s.status = .running

/-- 60_exceptions.md R451, R459 (decisions D22, D25): a step that ends in a fatal condition leaves the registers, the pc
and the count as they were before it, and a sound record; a step that does not is counted once. -/
def Obligations.FatalStepIsPrecise : Prop :=
  ∀ s t : State, step s = .next t →
    (t.isFaulted = true → t.regs = s.regs ∧ t.pc = s.pc ∧ t.icount = s.icount ∧ t.recordSound = true) ∧
      (t.isFaulted = false → t.icount = s.icount + 1)

/-- 40_engine.md R255: a completed step advances the access counter by 2 for `lw` and `sw` and by 1 for the other six;
a step that faults by 1, or by 0 when its fetch is out of bounds. -/
def Obligations.StepCountsAccesses : Prop :=
  ∀ s t : State, s.Coherent → step s = .next t →
    t.accessCounter =
      s.accessCounter +
        (if 0 ≤ s.pc ∧ s.pc < (s.cfg.memWords : Int) then
          (if t.isFaulted = false ∧ ((decode (s.view s.pc.toNat)).opcode = .lw ∨
              (decode (s.view s.pc.toNat)).opcode = .sw) then 2 else 1)
          else 0)

/-- 10_state.md R66, 20_memory.md R154: the trace only grows at its end; a completed step emits 1 to 6 events, a step whose
fetch completes at least 1. -/
def Obligations.StepAppendsFewEvents : Prop :=
  ∀ s t : State, step s = .next t →
    ∃ es, t.trace = s.trace ++ es ∧ es.length ≤ 6 ∧ (0 ≤ s.pc ∧ s.pc < (s.cfg.memWords : Int) → 1 ≤ es.length)

/-- 20_memory.md R154 (the spec's own inference; R153's order of eviction and fill is decision D12): a step appends the
events of its fetch and then, for an `lw` or `sw` that completes, those of its data access from the state the fetch
left; a step that faults past its fetch appends those of the fetch alone (60_exceptions.md R451, decision D22). -/
def Obligations.StepEventsInOrder : Prop :=
  ∀ (s t u : State) (w : Word), s.status = .running → s.fetch = .done w u → step s = .next t →
    t.trace = s.trace ++ s.accessEvents s.pc.toNat .read ++ if t.isFaulted then [] else u.dataEvents (decode w)

/-- 43_control.md R430, 10_state.md R54 (decision D26): a completed step sets the pc to `pc + 1`, unless it is a `beq` of
equal registers, which adds its offset as well. -/
def Obligations.OnlyBranchesJump : Prop :=
  ∀ s t : State, s.Coherent → step s = .next t → t.isFaulted = false →
    (∃ regA regB offset, decode (s.view s.pc.toNat) = .beq regA regB offset ∧ s.reg regA = s.reg regB ∧
      t.pc = s.pc + 1 + offset) ∨ t.pc = s.pc + 1

/-- 40_engine.md R250: the only step that ends in `Halted` is that of a `halt`. -/
def Obligations.OnlyHaltHalts : Prop :=
  ∀ s t : State, s.Coherent → step s = .next t →
    (t.status = .halted ↔ (0 ≤ s.pc ∧ s.pc < (s.cfg.memWords : Int) ∧ decode (s.view s.pc.toNat) = .halt))

/-- 10_state.md R51: register 0 is written by no step but that of an `lw` whose `regB` is 0. -/
def Obligations.OnlyLoadWritesRegisterZero : Prop :=
  ∀ s t : State, s.Coherent → step s = .next t → t.reg 0 ≠ s.reg 0 →
    ∃ regA offset, decode (s.view s.pc.toNat) = .lw regA 0 offset ∧
      t.reg 0 = s.view (sint32 (s.reg regA) + offset).toNat

/-- 10_state.md R59, R65: no step changes the configuration or the populated count. -/
def Obligations.ConfigurationIsConstant : Prop :=
  ∀ s t : State, step s = .next t → t.cfg = s.cfg ∧ t.populated = s.populated

/-- 20_memory.md R168: a fetch of the address just stored to answers the word stored. -/
def Obligations.FetchSeesStore : Prop :=
  ∀ (s t : State) (regA regB : RegIdx) (offset : Int), s.Coherent →
    0 ≤ sint32 (s.reg regA) + offset → sint32 (s.reg regA) + offset < (s.cfg.memWords : Int) →
    exec (.sw regA regB offset) s = .next t →
      ∃ u, ({ t with pc := sint32 (s.reg regA) + offset } : State).fetch = .done (s.reg regB) u

/-- 20_memory.md R165, 10_state.md R67: the cache is invisible to a program. Two states that agree on registers, pc, status,
count, capacity, destination width and the view of every address, whatever their cache geometries and contents, step to
states that agree again. -/
def Obligations.CacheIsInvisible : Prop :=
  ∀ s s' t : State, s.Coherent → s'.Coherent → SameArchitecture s s' → step s = .next t →
    ∃ t', step s' = .next t' ∧ SameArchitecture t t'

/-! ## Invariants, reset and the host -/

/-- 20_memory.md R141, R146, R147, R148, 60_exceptions.md R451: every step keeps the invariant. -/
def Obligations.StepKeepsInvariant : Prop :=
  ∀ s t : State, s.Inv → step s = .next t → t.Inv

/-- 20_memory.md R146, R147, R148: no instruction breaks the invariants of cache and memory, in any state that has them. -/
def Obligations.ExecKeepsCoherence : Prop :=
  ∀ (i : Instr) (s t : State), s.Coherent → exec i s = .next t → t.Coherent

/-- The state right after reset meets the invariant. -/
def Obligations.ResetMeetsInvariant : Prop := State.reset.Inv

/-- 10_state.md R68, 70_reset_and_hazards.md R500, R502: what reset leaves, row by row of R68, for every configuration and
the empty program (decisions D5, D11, D24, D26 for the values the source does not give; log 1, 2 for the configuration of
`State.reset`, log 10 for its empty program). -/
def Obligations.ResetLeavesSpecValues : Prop :=
  (∀ cfg : Config, let s := State.initial cfg
    s.regs = cfg.regInit ∧ s.pc = 0 ∧ s.status = .running ∧ s.icount = 0 ∧ s.accessCounter = 0 ∧ s.trace = [] ∧
      s.populated = 0 ∧ s.cfg = cfg ∧ (∀ a, s.mem.read a = 0) ∧
      s.cache.length = cfg.numSets ∧ (∀ set ∈ s.cache, set.length = cfg.blocksPerSet) ∧
      ∀ set ∈ s.cache, ∀ b ∈ set, b.valid = false ∧ b.dirty = false ∧ b.tag = 0 ∧ b.ts = 0 ∧ b.memHead = 0 ∧
        b.lines.length = cfg.blockSize ∧ ∀ v ∈ b.lines, v = 0) ∧
  State.reset = State.initial Config.hardware ∧ ∀ r, State.reset.reg r = 0

/-- 70_reset_and_hazards.md R500, R501, R504 (decisions D9, D20; log 7 for the grammar of an argument): what a successful
boot leaves: a running machine at address 0 that meets the invariant, its configuration the three geometry arguments over
the parameters, every block invalid and clean, and the program over zero in memory and in the processor's view, with no
event, no access and no instruction counted. -/
def Obligations.BootLoadsProgram : Prop :=
  ∀ (params : Config) (args : List Text) (readFile : Text → Option Text) (s : State),
    params.memWords ≤ 2 ^ 31 - 32768 → boot params args readFile = .ok s →
      s.Inv ∧ s.status = .running ∧ s.pc = 0 ∧ s.regs = params.regInit ∧ s.trace = [] ∧ s.accessCounter = 0 ∧
      s.icount = 0 ∧ s.cfg.memWords = params.memWords ∧ s.cfg.destFieldBits = params.destFieldBits ∧
      s.cfg.traceNowhere = params.traceNowhere ∧ s.cfg.regInit = params.regInit ∧
      (∀ set ∈ s.cache, ∀ b ∈ set, b.valid = false ∧ b.dirty = false) ∧
      ∃ path size sets ways text ws, args = [path, size, sets, ways] ∧ parseArgument size = some s.cfg.blockSize ∧
        parseArgument sets = some s.cfg.numSets ∧ parseArgument ways = some s.cfg.blocksPerSet ∧
        readFile path = some text ∧ parseProgram params.memWords text = .ok ws ∧ s.populated = ws.length ∧
        ∀ a, s.mem.read a = ws.getD a 0 ∧ s.view a = ws.getD a 0

/-- The model's own device (log 10): a word placed for the next fetch is the word the next step fetches, whatever the
cache held, and the placing keeps the invariants. -/
def Obligations.PlacedWordIsFetchedNext : Prop :=
  ∀ (s : State) (w : Word), s.Coherent →
    (s.placeWord w).Coherent ∧ (s.placeWord w).status = .running ∧ ∃ u, (s.placeWord w).fetch = .done w u

/-- 70_reset_and_hazards.md R504, R506 (decisions D9, D20, D28; log 7 for the last order): which host fault ends a boot,
cause by cause. -/
def Obligations.BootReportsFirstFault : Prop :=
  ∀ (params : Config) (args : List Text) (readFile : Text → Option Text),
    (boot params args readFile = .error .configArgs ↔ args.length ≠ 4) ∧
    ∀ path size sets ways, args = [path, size, sets, ways] →
      (boot params args readFile = .error .configGeometry ↔
        ¬∃ b n k, parseArgument size = some b ∧ parseArgument sets = some n ∧ parseArgument ways = some k ∧
          GeometryFits b n params.memWords) ∧
      ((∃ b n k, parseArgument size = some b ∧ parseArgument sets = some n ∧ parseArgument ways = some k ∧
          GeometryFits b n params.memWords) →
        (boot params args readFile = .error .configFile ↔ readFile path = none) ∧
        ∀ text, readFile path = some text →
          (boot params args readFile = .error .formatLine ↔ ∃ l ∈ programLines text, parseLine l = none) ∧
          (boot params args readFile = .error .configProgramSize ↔
            (∀ l ∈ programLines text, parseLine l ≠ none) ∧ params.memWords < (programLines text).length))

/-- 70_reset_and_hazards.md R506 (decision D20): a line that is accepted is the decimal integer its word reads as. -/
def Obligations.AcceptedLineIsItsWord : Prop :=
  ∀ line : Text, (∀ w, parseLine line = some w → parseDecimal (stripBlanks line) = some (sint32 w)) ∧
    ∀ i, parseDecimal (stripBlanks line) = some i →
      (parseLine line = none ↔ (i < -2147483648 ∨ 2147483647 < i))

/-- 70_reset_and_hazards.md R506 (decision D20; log 7 for where the carriage return may stand): spaces and tabs at the ends
of a line and one carriage return at its end, among them, are removed and nothing else is; a line with a second carriage
return is no valid line. -/
def Obligations.LineEndsAreStripped : Prop :=
  ∀ before body after more : Text, (∀ c ∈ before ++ after ++ more, c = ' ' ∨ c = '\t') →
    (∀ c ∈ body, c ≠ ' ' ∧ c ≠ '\t' ∧ c ≠ '\r') →
    stripBlanks (before ++ body ++ after) = body ∧
    stripBlanks (before ++ body ++ after ++ '\r' :: more) = body ∧
    parseLine (before ++ body ++ after ++ '\r' :: (more ++ ['\r'])) = none

/-- 70_reset_and_hazards.md R510, 40_engine.md R256, 60_exceptions.md R451 (decisions D15, D16; log 8): the completion
report exists exactly at `Halted` and shows the registers, the memory image (not the cache) over the populated range, the
pc and the count; the diagnostic exists exactly at `Faulted`, names the cause, and has a non-zero status. -/
def Obligations.ReportShowsFinalState : Prop :=
  ∀ s : State,
    (s.report.isSome = true ↔ s.status = .halted) ∧ (s.diagnostic.isSome = true ↔ s.isFaulted = true) ∧
    (∀ r, s.report = some r → r.pc = s.pc ∧ r.icount = s.icount ∧ r.mem.length = s.populated ∧
      (∀ a < s.populated, r.mem.getD a 0 = sint32 (s.mem.read a)) ∧
      ∀ q : RegIdx, r.regs.getD q.val 0 = sint32 (s.reg q)) ∧
    ∀ d, s.diagnostic = some d → d.exitStatus ≠ 0 ∧ ∃ record, s.status = .faulted record ∧ d.cause = record.cause
end

