-- ==== Sys2Proof/Laws/Memory.lean ====
section
/-! SUPPORT. The laws of the memory image: what a read sees after a write, and that every operation keeps the canonical
form. -/

namespace Sys2Proof.Machine

theorem Memory.wf_nil : Memory.wf [] := by simp [Memory.wf]

@[simp] theorem Memory.read_nil (a : Nat) : Memory.read [] a = Memory.unlisted := rfl

theorem Memory.read_cons (b a : Nat) (v : Word) (m : Memory) :
    Memory.read ((b, v) :: m) a = if a = b then v else Memory.read m a := rfl

/-- The canonical form of a memory with an entry at its head. -/
theorem Memory.wf_cons {b : Nat} {v : Word} {m : Memory} :
    Memory.wf ((b, v) :: m) ↔ ((∀ p ∈ m, b < p.1) ∧ v ≠ Memory.unlisted) ∧ Memory.wf m := by
  simp only [Memory.wf, List.pairwise_cons, List.mem_cons, forall_eq_or_imp]
  tauto

/-- An address below every listed one reads as unlisted. -/
theorem Memory.read_below {a : Nat} {m : Memory} (h : ∀ p ∈ m, a < p.1) : m.read a = Memory.unlisted := by
  induction m with
  | nil => rfl
  | cons p m ih =>
    obtain ⟨b, v⟩ := p
    have hb : a < b := h _ List.mem_cons_self
    rw [Memory.read_cons, if_neg (by omega), ih fun q hq => h q (List.mem_cons_of_mem _ hq)]

theorem Memory.read_consWord {a : Nat} {m : Memory} (h : ∀ p ∈ m, a < p.1) (v : Word) (b : Nat) :
    (Memory.consWord a v m).read b = if b = a then v else m.read b := by
  unfold Memory.consWord
  split
  · rename_i hv
    split
    · rename_i hb; rw [hb, hv, Memory.read_below h]
    · rfl
  · rfl

theorem Memory.wf_consWord {a : Nat} {m : Memory} (h : ∀ p ∈ m, a < p.1) (hm : m.wf) (v : Word) :
    (Memory.consWord a v m).wf := by
  unfold Memory.consWord
  split
  · exact hm
  · exact Memory.wf_cons.2 ⟨⟨h, ‹_›⟩, hm⟩

theorem Memory.mem_consWord {a : Nat} {v : Word} {m : Memory} {p : Nat × Word}
    (h : p ∈ Memory.consWord a v m) : p = (a, v) ∨ p ∈ m := by
  unfold Memory.consWord at h
  split at h
  · exact .inr h
  · simpa using h

/-- The entries after a write are the word written and entries that were there. -/
theorem Memory.mem_write {a : Nat} {v : Word} {m : Memory} {p : Nat × Word} (h : p ∈ m.write a v) :
    p = (a, v) ∨ p ∈ m := by
  induction m with
  | nil => simpa using Memory.mem_consWord h
  | cons q m ih =>
    obtain ⟨b, w⟩ := q
    unfold Memory.write at h
    split at h
    · exact Memory.mem_consWord h
    · split at h
      · exact (Memory.mem_consWord h).imp_right (List.mem_cons_of_mem _)
      · rcases List.mem_cons.1 h with h | h
        · exact .inr (h ▸ List.mem_cons_self)
        · exact (ih h).imp_right (List.mem_cons_of_mem _)

/-- Read after write, on every address. -/
theorem Memory.read_write {m : Memory} (hm : m.wf) (a : Nat) (v : Word) (b : Nat) :
    (m.write a v).read b = if b = a then v else m.read b := by
  induction m with
  | nil => exact Memory.read_consWord (by simp) v b
  | cons q m ih =>
    obtain ⟨c, w⟩ := q
    obtain ⟨⟨hc, -⟩, hm'⟩ := Memory.wf_cons.1 hm
    unfold Memory.write
    split
    · rename_i hac
      refine Memory.read_consWord ?_ v b
      intro p hp
      rcases List.mem_cons.1 hp with rfl | hp
      · exact hac
      · exact hac.trans (hc p hp)
    · split
      · rename_i hac
        subst hac
        rw [Memory.read_consWord hc, Memory.read_cons]
        split <;> rfl
      · rw [Memory.read_cons, Memory.read_cons, ih hm']
        split
        · rw [if_neg (by omega)]
        · rfl

theorem Memory.wf_write {m : Memory} (hm : m.wf) (a : Nat) (v : Word) : (m.write a v).wf := by
  induction m with
  | nil => exact Memory.wf_consWord (by simp) hm v
  | cons q m ih =>
    obtain ⟨c, w⟩ := q
    obtain ⟨⟨hc, hw⟩, hm'⟩ := Memory.wf_cons.1 hm
    unfold Memory.write
    split
    · rename_i hac
      refine Memory.wf_consWord ?_ hm v
      intro p hp
      rcases List.mem_cons.1 hp with rfl | hp
      · exact hac
      · exact hac.trans (hc p hp)
    · split
      · rename_i hac
        subst hac
        exact Memory.wf_consWord hc hm' v
      · refine Memory.wf_cons.2 ⟨⟨fun p hp => ?_, hw⟩, ih hm'⟩
        rcases Memory.mem_write hp with rfl | hp
        · show c < a
          omega
        · exact hc p hp

theorem Memory.wf_writeBlock {m : Memory} (hm : m.wf) (h : Nat) (ws : List Word) : (m.writeBlock h ws).wf := by
  induction ws generalizing m h with
  | nil => exact hm
  | cons w ws ih => exact ih (Memory.wf_write hm h w) (h + 1)

/-- Read after a block write, on every address. -/
theorem Memory.read_writeBlock {m : Memory} (hm : m.wf) (h : Nat) (ws : List Word) (b : Nat) :
    (m.writeBlock h ws).read b = if h ≤ b ∧ b < h + ws.length then ws.getD (b - h) 0 else m.read b := by
  induction ws generalizing m h with
  | nil => rw [if_neg (by simp)]; rfl
  | cons w ws ih =>
    rw [Memory.writeBlock, ih (Memory.wf_write hm h w), Memory.read_write hm]
    simp only [List.length_cons]
    by_cases h1 : b = h
    · subst h1
      rw [if_neg (by omega), if_pos rfl, if_pos (by omega)]
      simp
    · by_cases h2 : h ≤ b ∧ b < h + (ws.length + 1)
      · rw [if_pos (by omega), if_pos h2]
        obtain ⟨k, rfl⟩ : ∃ k, b = h + 1 + k := ⟨b - (h + 1), by omega⟩
        rw [show h + 1 + k - h = k + 1 from by omega, List.getD_cons_succ]
        congr 1
        omega
      · rw [if_neg (by omega), if_neg h1, if_neg h2]

/-- The entries after a block write are words of the block, inside its extent, and entries that were there. -/
theorem Memory.mem_writeBlock {m : Memory} {h : Nat} {ws : List Word} {p : Nat × Word}
    (hp : p ∈ m.writeBlock h ws) : (h ≤ p.1 ∧ p.1 < h + ws.length) ∨ p ∈ m := by
  induction ws generalizing m h with
  | nil => exact .inr hp
  | cons w ws ih =>
    rcases ih hp with hp | hp
    · simp only [List.length_cons]
      omega
    · rcases Memory.mem_write hp with rfl | hp
      · simp
      · exact .inr hp

@[simp] theorem Memory.length_readBlock (m : Memory) (h n : Nat) : (m.readBlock h n).length = n := by
  simp [Memory.readBlock]

theorem Memory.getD_readBlock (m : Memory) {h n k : Nat} (hk : k < n) :
    (m.readBlock h n).getD k 0 = m.read (h + k) := by
  simp [Memory.readBlock, List.getD, hk]

/-- Two memories that agree on an extent give the same block. -/
theorem Memory.readBlock_congr {m m' : Memory} {h n : Nat} (e : ∀ k < n, m.read (h + k) = m'.read (h + k)) :
    m.readBlock h n = m'.readBlock h n := by
  simp only [Memory.readBlock]
  exact List.map_congr_left fun k hk => e k (List.mem_range.1 hk)

/-- Reading back a block just written. -/
theorem Memory.readBlock_writeBlock {m : Memory} (hm : m.wf) (h : Nat) (ws : List Word) :
    (m.writeBlock h ws).readBlock h ws.length = ws := by
  refine List.ext_getElem (by simp) fun k _ hk => ?_
  simp [Memory.readBlock, Memory.read_writeBlock hm, hk]

end Sys2Proof.Machine
end

