-- ==== Sys2Proof/Laws/State.lean ====
section
/-! SUPPORT. What each update of the state does to each field: one lemma per field per update, so that no proof unfolds a
record update. -/

namespace Sys2Proof.Machine

@[simp] theorem State.setReg_cfg (s : State) (r : RegIdx) (v : Word) :
    (s.setReg r v).cfg = s.cfg := rfl
@[simp] theorem State.setReg_regs (s : State) (r : RegIdx) (v : Word) :
    (s.setReg r v).regs = s.regs.set r.val v r.isLt := rfl
@[simp] theorem State.setReg_pc (s : State) (r : RegIdx) (v : Word) :
    (s.setReg r v).pc = s.pc := rfl
@[simp] theorem State.setReg_status (s : State) (r : RegIdx) (v : Word) :
    (s.setReg r v).status = s.status := rfl
@[simp] theorem State.setReg_icount (s : State) (r : RegIdx) (v : Word) :
    (s.setReg r v).icount = s.icount := rfl
@[simp] theorem State.setReg_accessCounter (s : State) (r : RegIdx) (v : Word) :
    (s.setReg r v).accessCounter = s.accessCounter := rfl
@[simp] theorem State.setReg_cache (s : State) (r : RegIdx) (v : Word) :
    (s.setReg r v).cache = s.cache := rfl
@[simp] theorem State.setReg_mem (s : State) (r : RegIdx) (v : Word) :
    (s.setReg r v).mem = s.mem := rfl
@[simp] theorem State.setReg_populated (s : State) (r : RegIdx) (v : Word) :
    (s.setReg r v).populated = s.populated := rfl
@[simp] theorem State.setReg_trace (s : State) (r : RegIdx) (v : Word) :
    (s.setReg r v).trace = s.trace := rfl
@[simp] theorem State.setReg_fetched (s : State) (r : RegIdx) (v : Word) :
    (s.setReg r v).fetched = s.fetched := rfl

@[simp] theorem State.setPc_cfg (s : State) (target : Int) :
    (s.setPc target).cfg = s.cfg := rfl
@[simp] theorem State.setPc_regs (s : State) (target : Int) :
    (s.setPc target).regs = s.regs := rfl
@[simp] theorem State.setPc_pc (s : State) (target : Int) :
    (s.setPc target).pc = target := rfl
@[simp] theorem State.setPc_status (s : State) (target : Int) :
    (s.setPc target).status = s.status := rfl
@[simp] theorem State.setPc_icount (s : State) (target : Int) :
    (s.setPc target).icount = s.icount := rfl
@[simp] theorem State.setPc_accessCounter (s : State) (target : Int) :
    (s.setPc target).accessCounter = s.accessCounter := rfl
@[simp] theorem State.setPc_cache (s : State) (target : Int) :
    (s.setPc target).cache = s.cache := rfl
@[simp] theorem State.setPc_mem (s : State) (target : Int) :
    (s.setPc target).mem = s.mem := rfl
@[simp] theorem State.setPc_populated (s : State) (target : Int) :
    (s.setPc target).populated = s.populated := rfl
@[simp] theorem State.setPc_trace (s : State) (target : Int) :
    (s.setPc target).trace = s.trace := rfl
@[simp] theorem State.setPc_fetched (s : State) (target : Int) :
    (s.setPc target).fetched = s.fetched := rfl

@[simp] theorem State.advancePc_cfg (s : State) :
    s.advancePc.cfg = s.cfg := rfl
@[simp] theorem State.advancePc_regs (s : State) :
    s.advancePc.regs = s.regs := rfl
@[simp] theorem State.advancePc_pc (s : State) :
    s.advancePc.pc = s.pc + 1 := rfl
@[simp] theorem State.advancePc_status (s : State) :
    s.advancePc.status = s.status := rfl
@[simp] theorem State.advancePc_icount (s : State) :
    s.advancePc.icount = s.icount := rfl
@[simp] theorem State.advancePc_accessCounter (s : State) :
    s.advancePc.accessCounter = s.accessCounter := rfl
@[simp] theorem State.advancePc_cache (s : State) :
    s.advancePc.cache = s.cache := rfl
@[simp] theorem State.advancePc_mem (s : State) :
    s.advancePc.mem = s.mem := rfl
@[simp] theorem State.advancePc_populated (s : State) :
    s.advancePc.populated = s.populated := rfl
@[simp] theorem State.advancePc_trace (s : State) :
    s.advancePc.trace = s.trace := rfl
@[simp] theorem State.advancePc_fetched (s : State) :
    s.advancePc.fetched = s.fetched := rfl

@[simp] theorem State.setHalted_cfg (s : State) :
    s.setHalted.cfg = s.cfg := rfl
@[simp] theorem State.setHalted_regs (s : State) :
    s.setHalted.regs = s.regs := rfl
@[simp] theorem State.setHalted_pc (s : State) :
    s.setHalted.pc = s.pc := rfl
@[simp] theorem State.setHalted_status (s : State) :
    s.setHalted.status = .halted := rfl
@[simp] theorem State.setHalted_icount (s : State) :
    s.setHalted.icount = s.icount := rfl
@[simp] theorem State.setHalted_accessCounter (s : State) :
    s.setHalted.accessCounter = s.accessCounter := rfl
@[simp] theorem State.setHalted_cache (s : State) :
    s.setHalted.cache = s.cache := rfl
@[simp] theorem State.setHalted_mem (s : State) :
    s.setHalted.mem = s.mem := rfl
@[simp] theorem State.setHalted_populated (s : State) :
    s.setHalted.populated = s.populated := rfl
@[simp] theorem State.setHalted_trace (s : State) :
    s.setHalted.trace = s.trace := rfl
@[simp] theorem State.setHalted_fetched (s : State) :
    s.setHalted.fetched = s.fetched := rfl

@[simp] theorem State.emit_cfg (s : State) (kind : EventKind) (first last : Nat) :
    (s.emit kind first last).cfg = s.cfg := rfl
@[simp] theorem State.emit_regs (s : State) (kind : EventKind) (first last : Nat) :
    (s.emit kind first last).regs = s.regs := rfl
@[simp] theorem State.emit_pc (s : State) (kind : EventKind) (first last : Nat) :
    (s.emit kind first last).pc = s.pc := rfl
@[simp] theorem State.emit_status (s : State) (kind : EventKind) (first last : Nat) :
    (s.emit kind first last).status = s.status := rfl
@[simp] theorem State.emit_icount (s : State) (kind : EventKind) (first last : Nat) :
    (s.emit kind first last).icount = s.icount := rfl
@[simp] theorem State.emit_accessCounter (s : State) (kind : EventKind) (first last : Nat) :
    (s.emit kind first last).accessCounter = s.accessCounter := rfl
@[simp] theorem State.emit_cache (s : State) (kind : EventKind) (first last : Nat) :
    (s.emit kind first last).cache = s.cache := rfl
@[simp] theorem State.emit_mem (s : State) (kind : EventKind) (first last : Nat) :
    (s.emit kind first last).mem = s.mem := rfl
@[simp] theorem State.emit_populated (s : State) (kind : EventKind) (first last : Nat) :
    (s.emit kind first last).populated = s.populated := rfl
@[simp] theorem State.emit_trace (s : State) (kind : EventKind) (first last : Nat) :
    (s.emit kind first last).trace = s.trace ++ [⟨kind, first, last⟩] := rfl
@[simp] theorem State.emit_fetched (s : State) (kind : EventKind) (first last : Nat) :
    (s.emit kind first last).fetched = s.fetched := rfl

@[simp] theorem State.raiseFatal_cfg (s : State) (cause : Cause) (addr : Option Int) :
    (s.raiseFatal cause addr).cfg = s.cfg := rfl
@[simp] theorem State.raiseFatal_regs (s : State) (cause : Cause) (addr : Option Int) :
    (s.raiseFatal cause addr).regs = s.regs := rfl
@[simp] theorem State.raiseFatal_pc (s : State) (cause : Cause) (addr : Option Int) :
    (s.raiseFatal cause addr).pc = s.pc := rfl
@[simp] theorem State.raiseFatal_status (s : State) (cause : Cause) (addr : Option Int) :
    (s.raiseFatal cause addr).status = .faulted ⟨cause, s.pc, s.fetched, addr⟩ := rfl
@[simp] theorem State.raiseFatal_icount (s : State) (cause : Cause) (addr : Option Int) :
    (s.raiseFatal cause addr).icount = s.icount := rfl
@[simp] theorem State.raiseFatal_accessCounter (s : State) (cause : Cause) (addr : Option Int) :
    (s.raiseFatal cause addr).accessCounter = s.accessCounter := rfl
@[simp] theorem State.raiseFatal_cache (s : State) (cause : Cause) (addr : Option Int) :
    (s.raiseFatal cause addr).cache = s.cache := rfl
@[simp] theorem State.raiseFatal_mem (s : State) (cause : Cause) (addr : Option Int) :
    (s.raiseFatal cause addr).mem = s.mem := rfl
@[simp] theorem State.raiseFatal_populated (s : State) (cause : Cause) (addr : Option Int) :
    (s.raiseFatal cause addr).populated = s.populated := rfl
@[simp] theorem State.raiseFatal_trace (s : State) (cause : Cause) (addr : Option Int) :
    (s.raiseFatal cause addr).trace = s.trace := rfl
@[simp] theorem State.raiseFatal_fetched (s : State) (cause : Cause) (addr : Option Int) :
    (s.raiseFatal cause addr).fetched = s.fetched := rfl

@[simp] theorem State.setBlock_cfg (s : State) (i j : Nat) (b : Block) :
    (s.setBlock i j b).cfg = s.cfg := rfl
@[simp] theorem State.setBlock_regs (s : State) (i j : Nat) (b : Block) :
    (s.setBlock i j b).regs = s.regs := rfl
@[simp] theorem State.setBlock_pc (s : State) (i j : Nat) (b : Block) :
    (s.setBlock i j b).pc = s.pc := rfl
@[simp] theorem State.setBlock_status (s : State) (i j : Nat) (b : Block) :
    (s.setBlock i j b).status = s.status := rfl
@[simp] theorem State.setBlock_icount (s : State) (i j : Nat) (b : Block) :
    (s.setBlock i j b).icount = s.icount := rfl
@[simp] theorem State.setBlock_accessCounter (s : State) (i j : Nat) (b : Block) :
    (s.setBlock i j b).accessCounter = s.accessCounter := rfl
@[simp] theorem State.setBlock_cache (s : State) (i j : Nat) (b : Block) :
    (s.setBlock i j b).cache = s.cache.set i ((s.cacheSet i).set j b) := rfl
@[simp] theorem State.setBlock_mem (s : State) (i j : Nat) (b : Block) :
    (s.setBlock i j b).mem = s.mem := rfl
@[simp] theorem State.setBlock_populated (s : State) (i j : Nat) (b : Block) :
    (s.setBlock i j b).populated = s.populated := rfl
@[simp] theorem State.setBlock_trace (s : State) (i j : Nat) (b : Block) :
    (s.setBlock i j b).trace = s.trace := rfl
@[simp] theorem State.setBlock_fetched (s : State) (i j : Nat) (b : Block) :
    (s.setBlock i j b).fetched = s.fetched := rfl

@[simp] theorem State.setFetched_cfg (s : State) (w : Option Word) :
    (s.setFetched w).cfg = s.cfg := rfl
@[simp] theorem State.setFetched_regs (s : State) (w : Option Word) :
    (s.setFetched w).regs = s.regs := rfl
@[simp] theorem State.setFetched_pc (s : State) (w : Option Word) :
    (s.setFetched w).pc = s.pc := rfl
@[simp] theorem State.setFetched_status (s : State) (w : Option Word) :
    (s.setFetched w).status = s.status := rfl
@[simp] theorem State.setFetched_icount (s : State) (w : Option Word) :
    (s.setFetched w).icount = s.icount := rfl
@[simp] theorem State.setFetched_accessCounter (s : State) (w : Option Word) :
    (s.setFetched w).accessCounter = s.accessCounter := rfl
@[simp] theorem State.setFetched_cache (s : State) (w : Option Word) :
    (s.setFetched w).cache = s.cache := rfl
@[simp] theorem State.setFetched_mem (s : State) (w : Option Word) :
    (s.setFetched w).mem = s.mem := rfl
@[simp] theorem State.setFetched_populated (s : State) (w : Option Word) :
    (s.setFetched w).populated = s.populated := rfl
@[simp] theorem State.setFetched_trace (s : State) (w : Option Word) :
    (s.setFetched w).trace = s.trace := rfl
@[simp] theorem State.setFetched_fetched (s : State) (w : Option Word) :
    (s.setFetched w).fetched = w := rfl

@[simp] theorem State.loadProgram_cfg (s : State) (ws : List Word) :
    (s.loadProgram ws).cfg = s.cfg := rfl
@[simp] theorem State.loadProgram_regs (s : State) (ws : List Word) :
    (s.loadProgram ws).regs = s.regs := rfl
@[simp] theorem State.loadProgram_pc (s : State) (ws : List Word) :
    (s.loadProgram ws).pc = s.pc := rfl
@[simp] theorem State.loadProgram_status (s : State) (ws : List Word) :
    (s.loadProgram ws).status = s.status := rfl
@[simp] theorem State.loadProgram_icount (s : State) (ws : List Word) :
    (s.loadProgram ws).icount = s.icount := rfl
@[simp] theorem State.loadProgram_accessCounter (s : State) (ws : List Word) :
    (s.loadProgram ws).accessCounter = s.accessCounter := rfl
@[simp] theorem State.loadProgram_cache (s : State) (ws : List Word) :
    (s.loadProgram ws).cache = s.cache := rfl
@[simp] theorem State.loadProgram_mem (s : State) (ws : List Word) :
    (s.loadProgram ws).mem = s.mem.writeBlock 0 ws := rfl
@[simp] theorem State.loadProgram_populated (s : State) (ws : List Word) :
    (s.loadProgram ws).populated = ws.length := rfl
@[simp] theorem State.loadProgram_trace (s : State) (ws : List Word) :
    (s.loadProgram ws).trace = s.trace := rfl
@[simp] theorem State.loadProgram_fetched (s : State) (ws : List Word) :
    (s.loadProgram ws).fetched = s.fetched := rfl

/-! Reading a register, a block or the view of an address after an update that leaves it alone. -/

@[simp] theorem State.block_setReg (s : State) (r : RegIdx) (v : Word) (i j : Nat) :
    (s.setReg r v).block i j = s.block i j := rfl
@[simp] theorem State.view_setReg (s : State) (r : RegIdx) (v : Word) (a : Nat) :
    (s.setReg r v).view a = s.view a := rfl
@[simp] theorem State.reg_setPc (s : State) (target : Int) (q : RegIdx) :
    (s.setPc target).reg q = s.reg q := rfl
@[simp] theorem State.block_setPc (s : State) (target : Int) (i j : Nat) :
    (s.setPc target).block i j = s.block i j := rfl
@[simp] theorem State.view_setPc (s : State) (target : Int) (a : Nat) :
    (s.setPc target).view a = s.view a := rfl
@[simp] theorem State.reg_advancePc (s : State) (q : RegIdx) :
    s.advancePc.reg q = s.reg q := rfl
@[simp] theorem State.block_advancePc (s : State) (i j : Nat) :
    s.advancePc.block i j = s.block i j := rfl
@[simp] theorem State.view_advancePc (s : State) (a : Nat) :
    s.advancePc.view a = s.view a := rfl
@[simp] theorem State.reg_setHalted (s : State) (q : RegIdx) :
    s.setHalted.reg q = s.reg q := rfl
@[simp] theorem State.block_setHalted (s : State) (i j : Nat) :
    s.setHalted.block i j = s.block i j := rfl
@[simp] theorem State.view_setHalted (s : State) (a : Nat) :
    s.setHalted.view a = s.view a := rfl
@[simp] theorem State.reg_emit (s : State) (kind : EventKind) (first last : Nat) (q : RegIdx) :
    (s.emit kind first last).reg q = s.reg q := rfl
@[simp] theorem State.block_emit (s : State) (kind : EventKind) (first last : Nat) (i j : Nat) :
    (s.emit kind first last).block i j = s.block i j := rfl
@[simp] theorem State.view_emit (s : State) (kind : EventKind) (first last : Nat) (a : Nat) :
    (s.emit kind first last).view a = s.view a := rfl
@[simp] theorem State.reg_raiseFatal (s : State) (cause : Cause) (addr : Option Int) (q : RegIdx) :
    (s.raiseFatal cause addr).reg q = s.reg q := rfl
@[simp] theorem State.block_raiseFatal (s : State) (cause : Cause) (addr : Option Int) (i j : Nat) :
    (s.raiseFatal cause addr).block i j = s.block i j := rfl
@[simp] theorem State.view_raiseFatal (s : State) (cause : Cause) (addr : Option Int) (a : Nat) :
    (s.raiseFatal cause addr).view a = s.view a := rfl
@[simp] theorem State.reg_setFetched (s : State) (w : Option Word) (q : RegIdx) :
    (s.setFetched w).reg q = s.reg q := rfl
@[simp] theorem State.block_setFetched (s : State) (w : Option Word) (i j : Nat) :
    (s.setFetched w).block i j = s.block i j := rfl
@[simp] theorem State.view_setFetched (s : State) (w : Option Word) (a : Nat) :
    (s.setFetched w).view a = s.view a := rfl

end Sys2Proof.Machine
end

