-- ==== Sys2Proof/Laws/Cache.lean ====
section
/-! SUPPORT. The laws of the cache operations: what each leaves unchanged, what each answers, and that each keeps the
invariants of Safety.lean. -/

namespace Sys2Proof

theorem Config.Legal.blockSize_pos {c : Config} (h : c.Legal) : 0 < c.blockSize := by
  rw [← h.blockSize_pow]
  exact Nat.two_pow_pos _

theorem Config.Legal.numSets_pos {c : Config} (h : c.Legal) : 0 < c.numSets := by
  rw [← h.numSets_pow]
  exact Nat.two_pow_pos _

end Sys2Proof

namespace Sys2Proof.Machine

/-! ### Geometry -/

/-- The tag as a quotient (20_memory.md R111). -/
theorem decompose_tag {c : Config} (h : c.Legal) (a : Nat) :
    (decompose c a).tag = a / c.blockSize / c.numSets := by
  have hb : 2 ^ c.offsetBits = c.blockSize := h.blockSize_pow
  have hn : 2 ^ c.indexBits = c.numSets := h.numSets_pow
  simp only [decompose, Nat.shiftRight_eq_div_pow, Nat.pow_add, hb, hn, Nat.div_div_eq_div_mul]

theorem decompose_setIndex (c : Config) (a : Nat) :
    (decompose c a).setIndex = a / c.blockSize % c.numSets := rfl

theorem decompose_offset (c : Config) (a : Nat) : (decompose c a).offset = a % c.blockSize := rfl

theorem setIndex_lt {c : Config} (h : c.Legal) (a : Nat) : (decompose c a).setIndex < c.numSets :=
  Nat.mod_lt _ h.numSets_pos

theorem offset_lt {c : Config} (h : c.Legal) (a : Nat) : (decompose c a).offset < c.blockSize :=
  Nat.mod_lt _ h.blockSize_pos

/-- The block head from the tag and the set index (20_memory.md R148). -/
theorem blockHead_eq {c : Config} (h : c.Legal) (a : Nat) :
    blockHead c a = (decompose c a).tag * c.blockSize * c.numSets + (decompose c a).setIndex * c.blockSize := by
  rw [decompose_tag h, decompose_setIndex, blockHead]
  conv_lhs => rw [← Nat.div_add_mod (a / c.blockSize) c.numSets]
  ring

theorem blockHead_add_offset (c : Config) (a : Nat) : blockHead c a + (decompose c a).offset = a := by
  rw [blockHead, decompose_offset, Nat.mul_comm]
  exact Nat.div_add_mod a c.blockSize

theorem blockHead_le (c : Config) (a : Nat) : blockHead c a ≤ a := Nat.div_mul_le_self _ _

/-- The extent of an address in memory lies in memory (20_memory.md R112). -/
theorem extent_inside {c : Config} (h : c.Legal) {k : Nat} (hk : k * c.blockSize < c.memWords) :
    k * c.blockSize + c.blockSize ≤ c.memWords := by
  obtain ⟨m, hm⟩ := Nat.dvd_of_mod_eq_zero h.memWords_mult
  rw [hm] at hk ⊢
  have hb := h.blockSize_pos
  have : k < m := by
    by_contra hc
    exact absurd hk (not_lt.2 (by rw [Nat.mul_comm]; exact Nat.mul_le_mul_right _ (not_lt.1 hc)))
  calc k * c.blockSize + c.blockSize = c.blockSize * (k + 1) := by ring
    _ ≤ c.blockSize * m := Nat.mul_le_mul_left _ this

/-- An address in the extent of a tag and a set decomposes to them. -/
theorem decompose_extent {c : Config} (h : c.Legal) {t i k : Nat} (hi : i < c.numSets) (hk : k < c.blockSize) :
    decompose c (t * c.blockSize * c.numSets + i * c.blockSize + k) = ⟨t, i, k⟩ := by
  have hb := h.blockSize_pos
  have hn := h.numSets_pos
  have e : t * c.blockSize * c.numSets + i * c.blockSize + k = c.blockSize * (c.numSets * t + i) + k := by ring
  have hq : (t * c.blockSize * c.numSets + i * c.blockSize + k) / c.blockSize = c.numSets * t + i := by
    rw [e, Nat.mul_add_div hb, Nat.div_eq_of_lt hk, Nat.add_zero]
  have hr : (t * c.blockSize * c.numSets + i * c.blockSize + k) % c.blockSize = k := by
    rw [e, Nat.mul_add_mod, Nat.mod_eq_of_lt hk]
  have h1 := decompose_tag h (t * c.blockSize * c.numSets + i * c.blockSize + k)
  have h2 := decompose_setIndex c (t * c.blockSize * c.numSets + i * c.blockSize + k)
  have h3 := decompose_offset c (t * c.blockSize * c.numSets + i * c.blockSize + k)
  rw [hq, Nat.mul_add_div hn, Nat.div_eq_of_lt hi, Nat.add_zero] at h1
  rw [hq, Nat.mul_add_mod, Nat.mod_eq_of_lt hi] at h2
  rw [hr] at h3
  cases hd : decompose c (t * c.blockSize * c.numSets + i * c.blockSize + k)
  simp_all

/-- An address lies in an extent exactly when it has the extent's tag and set. -/
theorem mem_extent_iff {c : Config} (h : c.Legal) {t i b : Nat} (hi : i < c.numSets) :
    (t * c.blockSize * c.numSets + i * c.blockSize ≤ b ∧
        b < t * c.blockSize * c.numSets + i * c.blockSize + c.blockSize) ↔
      (decompose c b).tag = t ∧ (decompose c b).setIndex = i := by
  constructor
  · rintro ⟨h1, h2⟩
    obtain ⟨k, rfl⟩ := Nat.exists_eq_add_of_le h1
    rw [decompose_extent h hi (by omega)]
    exact ⟨rfl, rfl⟩
  · rintro ⟨h1, h2⟩
    have e := blockHead_eq h b
    rw [h1, h2] at e
    have e2 := blockHead_add_offset c b
    have e3 := offset_lt h b
    omega

/-! ### Blocks and slots -/

theorem State.cacheSet_eq {s : State} {i : Nat} (h : i < s.cache.length) : s.cacheSet i = s.cache[i] := by
  simp [State.cacheSet, List.getD, h]

theorem State.CacheShape.length_cacheSet {s : State} (h : s.CacheShape) {i : Nat} (hi : i < s.cfg.numSets) :
    (s.cacheSet i).length = s.cfg.blocksPerSet := by
  have hi' : i < s.cache.length := h.1 ▸ hi
  rw [State.cacheSet_eq hi']
  exact (h.2 _ (List.getElem_mem hi')).1

theorem State.CacheShape.getElem_cacheSet {s : State} (h : s.CacheShape) {i j : Nat} (hi : i < s.cfg.numSets)
    (hj : j < s.cfg.blocksPerSet) :
    (s.cacheSet i)[j]'(by rw [h.length_cacheSet hi]; exact hj) = s.block i j := by
  simp [State.block, List.getD, h.length_cacheSet hi, hj]

theorem State.CacheShape.length_lines {s : State} (h : s.CacheShape) {i j : Nat} (hi : i < s.cfg.numSets)
    (hj : j < s.cfg.blocksPerSet) : (s.block i j).lines.length = s.cfg.blockSize := by
  have hi' : i < s.cache.length := h.1 ▸ hi
  rw [← h.getElem_cacheSet hi hj]
  refine (h.2 (s.cacheSet i) ?_).2 _ (List.getElem_mem _)
  rw [State.cacheSet_eq hi']
  exact List.getElem_mem hi'

/-- A state whose cache and configuration are those of another has its blocks. -/
theorem State.block_congr {s t : State} (hc : t.cache = s.cache) (hg : t.cfg = s.cfg) (i j : Nat) :
    t.block i j = s.block i j := by
  simp only [State.block, State.cacheSet, hc, hg]

theorem State.cacheSet_setBlock (s : State) (i j : Nat) (b : Block) (k : Nat) :
    (s.setBlock i j b).cacheSet k =
      if k = i ∧ i < s.cache.length then (s.cacheSet i).set j b else s.cacheSet k := by
  simp only [State.cacheSet, State.setBlock_cache, List.getD, List.getElem?_set]
  by_cases hk : i = k
  · subst hk
    by_cases hi : i < s.cache.length
    · simp [hi]
    · simp [hi]
  · simp [hk, Ne.symm hk]

/-- What each slot holds after one slot is written. -/
theorem State.block_setBlock {s : State} (h : s.CacheShape) {i j : Nat} (hi : i < s.cfg.numSets)
    (hj : j < s.cfg.blocksPerSet) (b : Block) (k l : Nat) :
    (s.setBlock i j b).block k l = if k = i ∧ l = j then b else s.block k l := by
  have hi' : i < s.cache.length := h.1 ▸ hi
  rw [State.block, State.cacheSet_setBlock]
  by_cases hk : k = i
  · subst hk
    rw [if_pos ⟨rfl, hi'⟩]
    simp only [List.getD, List.getElem?_set]
    by_cases hl : l = j
    · subst hl
      simp [h.length_cacheSet hi, hj]
    · rw [if_neg (Ne.symm hl), if_neg (by tauto)]
      rfl
  · rw [if_neg (by tauto), if_neg (by tauto)]
    rfl

/-- The shape is a property of the cache and the configuration. -/
theorem State.CacheShape.congr {s t : State} (h : s.CacheShape) (hc : t.cache = s.cache) (hg : t.cfg = s.cfg) :
    t.CacheShape := by
  simpa only [State.CacheShape, hc, hg] using h

theorem State.CacheShape.setBlock {s : State} (h : s.CacheShape) (i j : Nat) {b : Block}
    (hb : b.lines.length = s.cfg.blockSize) : (s.setBlock i j b).CacheShape := by
  refine ⟨by simp [h.1], ?_⟩
  intro set hset
  simp only [State.setBlock_cache, State.setBlock_cfg] at hset ⊢
  by_cases hi : i < s.cache.length
  · rcases List.mem_or_eq_of_mem_set hset with hset | rfl
    · exact h.2 set hset
    · have hs := h.2 (s.cacheSet i) (by rw [State.cacheSet_eq hi]; exact List.getElem_mem hi)
      refine ⟨by rw [List.length_set]; exact hs.1, fun c hc => ?_⟩
      rcases List.mem_or_eq_of_mem_set hc with hc | rfl
      · exact hs.2 c hc
      · exact hb
  · rw [List.set_eq_of_length_le (not_lt.1 hi)] at hset
    exact h.2 set hset

/-! ### Lookup and slot choice -/

theorem Block.holds_iff {b : Block} {t : Nat} : b.holds t = true ↔ b.valid = true ∧ b.tag = t := by
  simp [Block.holds]

/-- A lookup that answers a slot answers a valid block with the tag (20_memory.md R118). -/
theorem State.lookup_some {s : State} (h : s.CacheShape) {i t j : Nat} (hi : i < s.cfg.numSets)
    (hl : s.lookup i t = some j) :
    j < s.cfg.blocksPerSet ∧ (s.block i j).valid = true ∧ (s.block i j).tag = t := by
  obtain ⟨hj, hh, -⟩ := List.findIdx?_eq_some_iff_getElem.1 hl
  have hj' : j < s.cfg.blocksPerSet := h.length_cacheSet hi ▸ hj
  refine ⟨hj', ?_⟩
  rw [← h.getElem_cacheSet hi hj']
  exact Block.holds_iff.1 hh

/-- A lookup that answers none: no valid block has the tag (20_memory.md R118). -/
theorem State.lookup_none {s : State} (h : s.CacheShape) {i t : Nat} (hi : i < s.cfg.numSets)
    (hl : s.lookup i t = none) {j : Nat} (hj : j < s.cfg.blocksPerSet) :
    ¬((s.block i j).valid = true ∧ (s.block i j).tag = t) := by
  rw [← h.getElem_cacheSet hi hj, ← Block.holds_iff]
  have := List.findIdx?_eq_none_iff.1 hl _ (List.getElem_mem (by rw [h.length_cacheSet hi]; exact hj))
  simp [this]

/-- Where tags are unique, the lookup answers the one slot that holds the tag. -/
theorem State.lookup_eq_some {s : State} (h : s.CacheShape) (hu : s.TagUnique) {i t j : Nat}
    (hi : i < s.cfg.numSets) (hj : j < s.cfg.blocksPerSet) (hv : (s.block i j).valid = true)
    (ht : (s.block i j).tag = t) : s.lookup i t = some j := by
  cases hl : s.lookup i t with
  | none => exact absurd ⟨hv, ht⟩ (State.lookup_none h hi hl hj)
  | some k =>
    obtain ⟨hk, hkv, hkt⟩ := State.lookup_some h hi hl
    rw [hu i hi k hk j hj hkv hv (hkt.trans ht.symm)]

/-- A lookup is none where no valid block has the tag. -/
theorem State.lookup_eq_none {s : State} (h : s.CacheShape) {i t : Nat} (hi : i < s.cfg.numSets)
    (hn : ∀ j < s.cfg.blocksPerSet, ¬((s.block i j).valid = true ∧ (s.block i j).tag = t)) :
    s.lookup i t = none := by
  cases hl : s.lookup i t with
  | none => rfl
  | some k =>
    obtain ⟨hk, hkv⟩ := State.lookup_some h hi hl
    exact absurd hkv (hn k hk)

theorem firstInvalid_some {s : State} (h : s.CacheShape) {i j : Nat} (hi : i < s.cfg.numSets)
    (hf : firstInvalid (s.cacheSet i) = some j) :
    j < s.cfg.blocksPerSet ∧ (s.block i j).valid = false ∧ ∀ k < j, (s.block i k).valid = true := by
  obtain ⟨hj, hh, hk⟩ := List.findIdx?_eq_some_iff_getElem.1 hf
  have hj' : j < s.cfg.blocksPerSet := h.length_cacheSet hi ▸ hj
  refine ⟨hj', ?_, fun k hkj => ?_⟩
  · rw [← h.getElem_cacheSet hi hj']
    simpa using hh
  · have := hk k hkj
    rw [h.getElem_cacheSet hi (hkj.trans hj')] at this
    simpa using this

theorem firstInvalid_none {s : State} (h : s.CacheShape) {i : Nat} (hi : i < s.cfg.numSets)
    (hf : firstInvalid (s.cacheSet i) = none) {j : Nat} (hj : j < s.cfg.blocksPerSet) :
    (s.block i j).valid = true := by
  rw [← h.getElem_cacheSet hi hj]
  simpa using List.findIdx?_eq_none_iff.1 hf _ (List.getElem_mem (by rw [h.length_cacheSet hi]; exact hj))

/-- A non-empty list of blocks has one with the smallest timestamp. -/
theorem exists_oldest {set : List Block} (h : set ≠ []) : ∃ b ∈ set, ∀ c ∈ set, b.ts ≤ c.ts := by
  induction set with
  | nil => exact absurd rfl h
  | cons b set ih =>
    by_cases hs : set = []
    · exact ⟨b, List.mem_cons_self, by simp [hs]⟩
    · obtain ⟨c, hc, hmin⟩ := ih hs
      rcases Nat.le_total b.ts c.ts with hle | hle
      · refine ⟨b, List.mem_cons_self, fun d hd => ?_⟩
        rcases List.mem_cons.1 hd with rfl | hd
        · exact le_refl _
        · exact hle.trans (hmin d hd)
      · refine ⟨c, List.mem_cons_of_mem _ hc, fun d hd => ?_⟩
        rcases List.mem_cons.1 hd with rfl | hd
        · exact hle
        · exact hmin d hd

theorem victim_lt_length {set : List Block} (h : set ≠ []) : victim set < set.length := by
  obtain ⟨b, hb, hmin⟩ := exists_oldest h
  exact List.findIdx_lt_length_of_exists ⟨b, hb, by simpa using hmin⟩

theorem victim_lt {s : State} (h : s.CacheShape) (hc : s.cfg.Legal) {i : Nat} (hi : i < s.cfg.numSets) :
    victim (s.cacheSet i) < s.cfg.blocksPerSet := by
  have hl := h.length_cacheSet hi
  rw [← hl]
  refine victim_lt_length fun e => ?_
  have := hc.blocksPerSet_pos
  simp [e] at hl
  omega

/-! ### The processor view -/

/-- The view where a slot holds the address (20_memory.md R165). -/
theorem State.view_of_holds {s : State} (h : s.CacheShape) (hu : s.TagUnique) (hc : s.cfg.Legal) {a j : Nat}
    (hj : j < s.cfg.blocksPerSet) (hv : (s.block (decompose s.cfg a).setIndex j).valid = true)
    (ht : (s.block (decompose s.cfg a).setIndex j).tag = (decompose s.cfg a).tag) :
    s.view a = (s.block (decompose s.cfg a).setIndex j).lines.getD (decompose s.cfg a).offset 0 := by
  simp only [State.view, State.lookup_eq_some h hu (setIndex_lt hc a) hj hv ht]

/-- The view where no slot holds the address (20_memory.md R165). -/
theorem State.view_of_absent {s : State} (h : s.CacheShape) (hc : s.cfg.Legal) {a : Nat}
    (hn : ∀ j < s.cfg.blocksPerSet, ¬((s.block (decompose s.cfg a).setIndex j).valid = true ∧
      (s.block (decompose s.cfg a).setIndex j).tag = (decompose s.cfg a).tag)) :
    s.view a = s.mem.read a := by
  simp only [State.view, State.lookup_eq_none h (setIndex_lt hc a) hn]

end Sys2Proof.Machine
end

