-- ==== Sys2Proof/Laws/Access.lean ====
section
/-! SUPPORT. What an access to the cache can do: eviction, slot choice, fill and completion, each said once, and the
invariants they keep (20_memory.md R119 to R149, R165). -/

namespace Sys2Proof.Machine

/-! ### Fields that no cache operation writes -/

@[simp] theorem State.evict_cfg (s : State) (i j : Nat) : (s.evict i j).cfg = s.cfg := by
  unfold State.evict; dsimp only; split <;> rfl
@[simp] theorem State.evict_regs (s : State) (i j : Nat) : (s.evict i j).regs = s.regs := by
  unfold State.evict; dsimp only; split <;> rfl
@[simp] theorem State.evict_pc (s : State) (i j : Nat) : (s.evict i j).pc = s.pc := by
  unfold State.evict; dsimp only; split <;> rfl
@[simp] theorem State.evict_status (s : State) (i j : Nat) : (s.evict i j).status = s.status := by
  unfold State.evict; dsimp only; split <;> rfl
@[simp] theorem State.evict_icount (s : State) (i j : Nat) : (s.evict i j).icount = s.icount := by
  unfold State.evict; dsimp only; split <;> rfl
@[simp] theorem State.evict_accessCounter (s : State) (i j : Nat) :
    (s.evict i j).accessCounter = s.accessCounter := by
  unfold State.evict; dsimp only; split <;> rfl
@[simp] theorem State.evict_populated (s : State) (i j : Nat) : (s.evict i j).populated = s.populated := by
  unfold State.evict; dsimp only; split <;> rfl
@[simp] theorem State.evict_fetched (s : State) (i j : Nat) : (s.evict i j).fetched = s.fetched := by
  unfold State.evict; dsimp only; split <;> rfl

/-- The memory after an eviction: the dirty block's lines over its extent, or untouched (20_memory.md R136, R149). -/
theorem State.evict_mem (s : State) (i j : Nat) :
    (s.evict i j).mem =
      if (s.block i j).dirty then s.mem.writeBlock (s.block i j).memHead (s.block i j).lines else s.mem := by
  unfold State.evict; dsimp only; split <;> rfl

/-- The event of an eviction (20_memory.md R136). -/
theorem State.evict_trace (s : State) (i j : Nat) :
    (s.evict i j).trace = s.trace ++ [⟨if (s.block i j).dirty then .cacheToMemory else .cacheToNowhere,
      (s.block i j).memHead, extentLast s.cfg (s.block i j).memHead⟩] := by
  unfold State.evict; dsimp only; split <;> rfl

/-- The cache after an eviction: one block is made clean and invalid. -/
theorem State.evict_cache (s : State) (i j : Nat) :
    (s.evict i j).cache = (s.setBlock i j { s.block i j with dirty := false, valid := false }).cache := by
  unfold State.evict
  dsimp only
  split
  · rfl
  · rename_i h
    rw [Bool.not_eq_true] at h
    simp only [State.setBlock_cache, State.emit, State.cacheSet]
    rw [show ({ s.block i j with valid := false } : Block) =
      { s.block i j with dirty := false, valid := false } by rw [← h]]

@[simp] theorem State.fill_cfg (s : State) (i j a c : Nat) : (s.fill i j a c).cfg = s.cfg := rfl
@[simp] theorem State.fill_regs (s : State) (i j a c : Nat) : (s.fill i j a c).regs = s.regs := rfl
@[simp] theorem State.fill_pc (s : State) (i j a c : Nat) : (s.fill i j a c).pc = s.pc := rfl
@[simp] theorem State.fill_status (s : State) (i j a c : Nat) : (s.fill i j a c).status = s.status := rfl
@[simp] theorem State.fill_icount (s : State) (i j a c : Nat) : (s.fill i j a c).icount = s.icount := rfl
@[simp] theorem State.fill_accessCounter (s : State) (i j a c : Nat) :
    (s.fill i j a c).accessCounter = s.accessCounter := rfl
@[simp] theorem State.fill_mem (s : State) (i j a c : Nat) : (s.fill i j a c).mem = s.mem := rfl
@[simp] theorem State.fill_populated (s : State) (i j a c : Nat) : (s.fill i j a c).populated = s.populated := rfl
@[simp] theorem State.fill_fetched (s : State) (i j a c : Nat) : (s.fill i j a c).fetched = s.fetched := rfl
theorem State.fill_trace (s : State) (i j a c : Nat) :
    (s.fill i j a c).trace =
      s.trace ++ [⟨.memoryToCache, blockHead s.cfg a, extentLast s.cfg (blockHead s.cfg a)⟩] := rfl
theorem State.fill_cache (s : State) (i j a c : Nat) :
    (s.fill i j a c).cache = (s.setBlock i j (filledBlock s a c)).cache := rfl

/-- The two ways a slot is chosen (20_memory.md R130). -/
theorem State.chooseSlot_cases (s : State) (i : Nat) :
    (∃ j, firstInvalid (s.cacheSet i) = some j ∧ s.chooseSlot i = (j, s)) ∨
      (firstInvalid (s.cacheSet i) = none ∧
        s.chooseSlot i = (victim (s.cacheSet i), s.evict i (victim (s.cacheSet i)))) := by
  unfold State.chooseSlot
  split
  · exact .inl ⟨_, ‹_›, rfl⟩
  · exact .inr ⟨‹_›, rfl⟩

/-- The two ways an address is located: a hit, or a slot choice and a fill (20_memory.md R119). -/
theorem State.locate_cases (s : State) (a : Nat) :
    (∃ j, s.lookup (decompose s.cfg a).setIndex (decompose s.cfg a).tag = some j ∧ s.locate a = (j, s)) ∨
      (s.lookup (decompose s.cfg a).setIndex (decompose s.cfg a).tag = none ∧
        s.locate a = ((s.chooseSlot (decompose s.cfg a).setIndex).1,
          (s.chooseSlot (decompose s.cfg a).setIndex).2.fill (decompose s.cfg a).setIndex
            (s.chooseSlot (decompose s.cfg a).setIndex).1 a s.accessCounter)) := by
  unfold State.locate
  split
  · exact .inl ⟨_, ‹_›, rfl⟩
  · exact .inr ⟨‹_›, rfl⟩

/-- The fields of the state that neither the slot choice, nor the fill, nor the location of an address writes. -/
structure SameEngine (s t : State) : Prop where
  cfg : t.cfg = s.cfg
  regs : t.regs = s.regs
  pc : t.pc = s.pc
  status : t.status = s.status
  icount : t.icount = s.icount
  populated : t.populated = s.populated
  fetched : t.fetched = s.fetched

theorem SameEngine.refl (s : State) : SameEngine s s := ⟨rfl, rfl, rfl, rfl, rfl, rfl, rfl⟩

theorem SameEngine.trans {s t u : State} (h : SameEngine s t) (h' : SameEngine t u) : SameEngine s u :=
  ⟨h'.cfg.trans h.cfg, h'.regs.trans h.regs, h'.pc.trans h.pc, h'.status.trans h.status, h'.icount.trans h.icount,
    h'.populated.trans h.populated, h'.fetched.trans h.fetched⟩

theorem State.evict_sameEngine (s : State) (i j : Nat) : SameEngine s (s.evict i j) := by
  constructor <;> simp

theorem State.chooseSlot_sameEngine (s : State) (i : Nat) :
    SameEngine s (s.chooseSlot i).2 ∧ (s.chooseSlot i).2.accessCounter = s.accessCounter := by
  rcases s.chooseSlot_cases i with ⟨j, -, h⟩ | ⟨-, h⟩ <;> rw [h]
  · exact ⟨.refl s, rfl⟩
  · exact ⟨s.evict_sameEngine _ _, by simp⟩

theorem State.locate_sameEngine (s : State) (a : Nat) :
    SameEngine s (s.locate a).2 ∧ (s.locate a).2.accessCounter = s.accessCounter := by
  rcases s.locate_cases a with ⟨j, -, h⟩ | ⟨-, h⟩ <;> rw [h]
  · exact ⟨.refl s, rfl⟩
  · obtain ⟨h1, h2⟩ := s.chooseSlot_sameEngine (decompose s.cfg a).setIndex
    exact ⟨h1.trans (by constructor <;> rfl), h2⟩

theorem State.complete_sameEngine (s : State) (a j : Nat) (op : AccessOp) :
    SameEngine s (s.complete a j op).2 ∧ (s.complete a j op).2.accessCounter = s.accessCounter + 1 := by
  cases op <;> exact ⟨by constructor <;> rfl, rfl⟩

/-- An access writes no engine state and advances the counter once (20_memory.md R140). -/
theorem State.accessInRange_sameEngine (s : State) (a : Nat) (op : AccessOp) :
    SameEngine s (s.accessInRange a op).2 ∧ (s.accessInRange a op).2.accessCounter = s.accessCounter + 1 := by
  obtain ⟨h1, h2⟩ := s.locate_sameEngine a
  obtain ⟨h3, h4⟩ := (s.locate a).2.complete_sameEngine a (s.locate a).1 op
  exact ⟨h1.trans h3, h4.trans (by rw [h2])⟩

/-! ### Eviction -/

section
variable {s : State} {i j : Nat}

theorem State.block_evict (h : s.CacheShape) (hi : i < s.cfg.numSets) (hj : j < s.cfg.blocksPerSet) (k l : Nat) :
    (s.evict i j).block k l =
      if k = i ∧ l = j then { s.block i j with dirty := false, valid := false } else s.block k l := by
  rw [State.block_congr (s.evict_cache i j) (by simp), State.block_setBlock h hi hj]

/-- What memory holds after the eviction of a valid block: its lines over its extent, dirty or not (20_memory.md
R147, R149). -/
theorem State.Consistent.read_evict (h : s.Consistent) (hi : i < s.cfg.numSets) (hj : j < s.cfg.blocksPerSet)
    (hv : (s.block i j).valid = true) (b : Nat) :
    (s.evict i j).mem.read b =
      if (decompose s.cfg b).tag = (s.block i j).tag ∧ (decompose s.cfg b).setIndex = i then
        (s.block i j).lines.getD (decompose s.cfg b).offset 0
      else s.mem.read b := by
  obtain ⟨hh, -⟩ := h.heads i hi j hj hv
  have hlen := h.shape.length_lines hi hj
  have key := mem_extent_iff h.legal (t := (s.block i j).tag) (b := b) hi
  rw [← hh] at key
  have hoff : (decompose s.cfg b).tag = (s.block i j).tag ∧ (decompose s.cfg b).setIndex = i →
      (s.block i j).memHead + (decompose s.cfg b).offset = b := by
    rintro ⟨h1, h2⟩
    have e := blockHead_eq h.legal b
    rw [h1, h2, ← hh] at e
    rw [← e]
    exact blockHead_add_offset _ b
  rw [State.evict_mem]
  by_cases hd : (s.block i j).dirty = true
  · rw [if_pos hd, Memory.read_writeBlock h.memWf, hlen]
    by_cases hc : (decompose s.cfg b).tag = (s.block i j).tag ∧ (decompose s.cfg b).setIndex = i
    · rw [if_pos (key.2 hc), if_pos hc]
      have := hoff hc
      congr 1
      omega
    · rw [if_neg (fun e => hc (key.1 e)), if_neg hc]
  · rw [if_neg hd]
    split
    · rename_i hc
      rw [h.cleanAgrees i hi j hj hv (by simpa using hd), Memory.getD_readBlock _ (offset_lt h.legal b), hoff hc]
    · rfl

theorem State.Consistent.evict (h : s.Consistent) (hi : i < s.cfg.numSets) (hj : j < s.cfg.blocksPerSet)
    (hv : (s.block i j).valid = true) : (s.evict i j).Consistent := by
  have hb := State.block_evict h.shape hi hj
  have hother : ∀ k l, ((s.evict i j).block k l).valid = true → (s.evict i j).block k l = s.block k l ∧
      ¬(k = i ∧ l = j) := by
    intro k l hkl
    rw [hb] at hkl ⊢
    split at hkl
    · simp at hkl
    · rename_i hne
      exact ⟨by rw [if_neg hne], hne⟩
  refine ⟨by simpa using h.legal, ?_, ?_, ?_, ?_, ?_, ?_⟩
  · exact (h.shape.setBlock i j (b := { s.block i j with dirty := false, valid := false })
      (h.shape.length_lines hi hj)).congr (s.evict_cache i j) (by simp)
  · rw [State.evict_mem]
    split
    · exact Memory.wf_writeBlock h.memWf _ _
    · exact h.memWf
  · rw [State.evict_mem, State.evict_cfg]
    split
    · intro p hp
      rcases Memory.mem_writeBlock hp with hp | hp
      · obtain ⟨hh, hlt⟩ := h.heads i hi j hj hv
        rw [h.shape.length_lines hi hj] at hp
        have e : (s.block i j).memHead = ((s.block i j).tag * s.cfg.numSets + i) * s.cfg.blockSize := by
          rw [hh]; ring
        have := extent_inside h.legal (e ▸ hlt)
        omega
      · exact h.memInside p hp
    · exact h.memInside
  · intro k hk l hl hkl
    rw [State.evict_cfg] at hk hl ⊢
    obtain ⟨he, -⟩ := hother k l hkl
    rw [he] at hkl ⊢
    exact h.heads k hk l hl hkl
  · intro k hk l hl m hm hkl hkm ht
    rw [State.evict_cfg] at hk hl hm
    obtain ⟨hel, -⟩ := hother k l hkl
    obtain ⟨hem, -⟩ := hother k m hkm
    rw [hel] at hkl ht
    rw [hem] at hkm ht
    exact h.tagUnique k hk l hl m hm hkl hkm ht
  · intro k hk l hl hkl hd
    rw [State.evict_cfg] at hk hl ⊢
    obtain ⟨he, hne⟩ := hother k l hkl
    rw [he] at hkl hd ⊢
    rw [h.cleanAgrees k hk l hl hkl hd]
    refine Memory.readBlock_congr fun n hn => ?_
    obtain ⟨hh, -⟩ := h.heads k hk l hl hkl
    rw [h.read_evict hi hj hv, hh, decompose_extent h.legal hk hn, if_neg]
    rintro ⟨ht, rfl⟩
    exact hne ⟨rfl, h.tagUnique k hk l hl j hj hkl hv ht⟩

theorem State.Consistent.view_evict (h : s.Consistent) (hi : i < s.cfg.numSets) (hj : j < s.cfg.blocksPerSet)
    (hv : (s.block i j).valid = true) (b : Nat) : (s.evict i j).view b = s.view b := by
  have h' := h.evict hi hj hv
  have hb := State.block_evict h.shape hi hj
  have hset := setIndex_lt h.legal b
  by_cases hex : ∃ l < s.cfg.blocksPerSet, (s.block (decompose s.cfg b).setIndex l).valid = true ∧
      (s.block (decompose s.cfg b).setIndex l).tag = (decompose s.cfg b).tag
  · obtain ⟨l, hl, hlv, hlt⟩ := hex
    rw [State.view_of_holds h.shape h.tagUnique h.legal hl hlv hlt]
    by_cases hc : (decompose s.cfg b).setIndex = i ∧ l = j
    · obtain ⟨hci, rfl⟩ := hc
      rw [State.view_of_absent h'.shape h'.legal, h.read_evict hi hj hv, if_pos ⟨by rw [← hlt, hci], hci⟩, hci]
      intro m hm
      rw [State.evict_cfg] at hm ⊢
      rw [hb, hci]
      split
      · simp
      · rename_i hne
        rintro ⟨hmv, hmt⟩
        rw [hci] at hlv hlt
        exact hne ⟨rfl, h.tagUnique i hi m hm l hl hmv hlv (hmt.trans hlt.symm)⟩
    · rw [State.view_of_holds h'.shape h'.tagUnique h'.legal (j := l)]
      · rw [State.evict_cfg, hb, if_neg hc]
      · simpa using hl
      · rw [State.evict_cfg, hb, if_neg hc]
        exact hlv
      · rw [State.evict_cfg, hb, if_neg hc]
        exact hlt
  · have hn : ∀ l < s.cfg.blocksPerSet, ¬((s.block (decompose s.cfg b).setIndex l).valid = true ∧
        (s.block (decompose s.cfg b).setIndex l).tag = (decompose s.cfg b).tag) :=
      fun l hl hh => hex ⟨l, hl, hh⟩
    rw [State.view_of_absent h.shape h.legal hn, State.view_of_absent h'.shape h'.legal, h.read_evict hi hj hv,
      if_neg]
    · rintro ⟨ht, hci⟩
      exact hn j hj ⟨hci ▸ hv, by rw [ht, hci]⟩
    · intro m hm
      rw [State.evict_cfg] at hm ⊢
      rw [hb]
      split
      · simp
      · exact hn m hm

end

/-! ### Slot choice, fill, location -/

/-- What the slot choice gives: an invalid slot, every other block and every view as before. -/
structure Chosen (s t : State) (i j : Nat) : Prop where
  slot_lt : j < s.cfg.blocksPerSet
  invalid : (t.block i j).valid = false
  consistent : t.Consistent
  others : ∀ k l, ¬(k = i ∧ l = j) → t.block k l = s.block k l
  view : ∀ b, t.view b = s.view b

theorem State.Consistent.chooseSlot {s : State} (h : s.Consistent) {i : Nat} (hi : i < s.cfg.numSets) :
    Chosen s (s.chooseSlot i).2 i (s.chooseSlot i).1 := by
  rcases s.chooseSlot_cases i with ⟨j, hf, he⟩ | ⟨hf, he⟩
  · rw [he]
    obtain ⟨hj, hv, -⟩ := firstInvalid_some h.shape hi hf
    exact ⟨hj, hv, h, fun _ _ _ => rfl, fun _ => rfl⟩
  · rw [he]
    have hj := victim_lt h.shape h.legal hi
    have hv := firstInvalid_none h.shape hi hf hj
    have hb := State.block_evict h.shape hi hj
    exact ⟨hj, by rw [hb]; simp, h.evict hi hj hv, fun k l hne => by rw [hb, if_neg hne], h.view_evict hi hj hv⟩

/-- What locating an address gives: a slot that holds it, every other block and every view as before. -/
structure Located (s t : State) (a j : Nat) : Prop where
  slot_lt : j < s.cfg.blocksPerSet
  valid : (t.block (decompose s.cfg a).setIndex j).valid = true
  tag : (t.block (decompose s.cfg a).setIndex j).tag = (decompose s.cfg a).tag
  consistent : t.Consistent
  others : ∀ k l, ¬(k = (decompose s.cfg a).setIndex ∧ l = j) → t.block k l = s.block k l
  view : ∀ b, t.view b = s.view b

/-- A fill into an invalid slot, of an address no valid block holds. -/
theorem State.Consistent.fill {s : State} (h : s.Consistent) {a j : Nat} (c : Nat) (ha : a < s.cfg.memWords)
    (hj : j < s.cfg.blocksPerSet) (hinv : (s.block (decompose s.cfg a).setIndex j).valid = false)
    (hn : ∀ k < s.cfg.blocksPerSet, ¬((s.block (decompose s.cfg a).setIndex k).valid = true ∧
      (s.block (decompose s.cfg a).setIndex k).tag = (decompose s.cfg a).tag)) :
    Located s (s.fill (decompose s.cfg a).setIndex j a c) a j := by
  have hi := setIndex_lt h.legal a
  have hb : ∀ k l, (s.fill (decompose s.cfg a).setIndex j a c).block k l =
      if k = (decompose s.cfg a).setIndex ∧ l = j then filledBlock s a c else s.block k l := by
    intro k l
    rw [State.block_congr (s.fill_cache _ j a c) (by simp), State.block_setBlock h.shape hi hj]
  have hhead := blockHead_eq h.legal a
  have hcons : (s.fill (decompose s.cfg a).setIndex j a c).Consistent := by
    refine ⟨h.legal, ?_, h.memWf, h.memInside, ?_, ?_, ?_⟩
    · exact (h.shape.setBlock (decompose s.cfg a).setIndex j (b := filledBlock s a c)
        (by simp [filledBlock])).congr (s.fill_cache _ j a c) (by simp)
    · intro k hk l hl hkl
      rw [State.fill_cfg] at hk hl ⊢
      rw [hb] at hkl ⊢
      split
      · rename_i hkl'
        rw [hkl'.1]
        exact ⟨hhead, (blockHead_le _ a).trans_lt ha⟩
      · rename_i hne
        rw [if_neg hne] at hkl
        exact h.heads k hk l hl hkl
    · intro k hk l hl m hm hkl hkm ht
      rw [State.fill_cfg] at hk hl hm
      rw [hb] at hkl ht
      rw [hb] at hkm ht
      by_cases h1 : k = (decompose s.cfg a).setIndex ∧ l = j
      · by_cases h2 : k = (decompose s.cfg a).setIndex ∧ m = j
        · rw [h1.2, h2.2]
        · rw [if_pos h1, if_neg h2] at ht
          rw [if_neg h2] at hkm
          rw [h1.1] at hkm ht
          exact absurd ⟨hkm, ht.symm⟩ (hn m hm)
      · by_cases h2 : k = (decompose s.cfg a).setIndex ∧ m = j
        · rw [if_neg h1, if_pos h2] at ht
          rw [if_neg h1] at hkl
          rw [h2.1] at hkl ht
          exact absurd ⟨hkl, ht⟩ (hn l hl)
        · rw [if_neg h1] at hkl ht
          rw [if_neg h2] at hkm ht
          exact h.tagUnique k hk l hl m hm hkl hkm ht
    · intro k hk l hl hkl hd
      rw [State.fill_cfg] at hk hl ⊢
      rw [hb] at hkl hd ⊢
      split
      · rfl
      · rename_i hne
        rw [if_neg hne] at hkl hd
        exact h.cleanAgrees k hk l hl hkl hd
  refine ⟨hj, by rw [hb]; simp [filledBlock], by rw [hb]; simp [filledBlock], hcons,
    fun k l hne => by rw [hb, if_neg hne], fun b => ?_⟩
  by_cases hex : ∃ l < s.cfg.blocksPerSet, (s.block (decompose s.cfg b).setIndex l).valid = true ∧
      (s.block (decompose s.cfg b).setIndex l).tag = (decompose s.cfg b).tag
  · obtain ⟨l, hl, hlv, hlt⟩ := hex
    have hne : ¬((decompose s.cfg b).setIndex = (decompose s.cfg a).setIndex ∧ l = j) := by
      rintro ⟨e, rfl⟩
      rw [e, hinv] at hlv
      exact Bool.false_ne_true hlv
    rw [State.view_of_holds h.shape h.tagUnique h.legal hl hlv hlt,
      State.view_of_holds hcons.shape hcons.tagUnique hcons.legal (j := l)]
    · rw [State.fill_cfg, hb, if_neg hne]
    · simpa using hl
    · rw [State.fill_cfg, hb, if_neg hne]
      exact hlv
    · rw [State.fill_cfg, hb, if_neg hne]
      exact hlt
  · have hn' : ∀ l < s.cfg.blocksPerSet, ¬((s.block (decompose s.cfg b).setIndex l).valid = true ∧
        (s.block (decompose s.cfg b).setIndex l).tag = (decompose s.cfg b).tag) :=
      fun l hl hh => hex ⟨l, hl, hh⟩
    rw [State.view_of_absent h.shape h.legal hn']
    by_cases hsame : (decompose s.cfg b).setIndex = (decompose s.cfg a).setIndex ∧
        (decompose s.cfg b).tag = (decompose s.cfg a).tag
    · rw [State.view_of_holds hcons.shape hcons.tagUnique hcons.legal (j := j)]
      · rw [State.fill_cfg, hb, if_pos ⟨hsame.1, rfl⟩]
        show (s.mem.readBlock (blockHead s.cfg a) s.cfg.blockSize).getD _ 0 = _
        rw [Memory.getD_readBlock _ (offset_lt h.legal b)]
        congr 1
        have e := blockHead_eq h.legal b
        rw [hsame.1, hsame.2, ← hhead] at e
        rw [← e]
        exact blockHead_add_offset _ b
      · simpa using hj
      · rw [State.fill_cfg, hb, if_pos ⟨hsame.1, rfl⟩]
        rfl
      · rw [State.fill_cfg, hb, if_pos ⟨hsame.1, rfl⟩]
        exact hsame.2.symm
    · rw [State.view_of_absent hcons.shape hcons.legal, State.fill_mem]
      intro l hl
      rw [State.fill_cfg] at hl ⊢
      rw [hb]
      split
      · rename_i e
        rintro ⟨-, ht⟩
        exact hsame ⟨e.1, ht.symm⟩
      · exact hn' l hl

/-- Locating an address inside memory (20_memory.md R119, R122). -/
theorem State.Consistent.locate {s : State} (h : s.Consistent) {a : Nat} (ha : a < s.cfg.memWords) :
    Located s (s.locate a).2 a (s.locate a).1 := by
  have hi := setIndex_lt h.legal a
  rcases s.locate_cases a with ⟨j, hl, he⟩ | ⟨hl, he⟩
  · rw [he]
    obtain ⟨hj, hv, ht⟩ := State.lookup_some h.shape hi hl
    exact ⟨hj, hv, ht, h, fun _ _ _ => rfl, fun _ => rfl⟩
  · have hc := h.chooseSlot hi
    have hcfg : (s.chooseSlot (decompose s.cfg a).setIndex).2.cfg = s.cfg :=
      (s.chooseSlot_sameEngine _).1.cfg
    rw [he]
    have hf := hc.consistent.fill (a := a) (j := (s.chooseSlot (decompose s.cfg a).setIndex).1) s.accessCounter
      (by rw [hcfg]; exact ha) (by rw [hcfg]; exact hc.slot_lt) (by rw [hcfg]; exact hc.invalid) (by
        rw [hcfg]
        intro k hk
        by_cases hkj : k = (s.chooseSlot (decompose s.cfg a).setIndex).1
        · rw [hkj, hc.invalid]
          simp
        · rw [hc.others _ k (fun e => hkj e.2)]
          exact State.lookup_none h.shape hi hl hk)
    rw [hcfg] at hf
    refine ⟨hc.slot_lt, ?_, ?_, hf.consistent, fun k l hne => ?_, fun b => ?_⟩
    · have := hf.valid
      rwa [hcfg] at this
    · have := hf.tag
      rwa [hcfg] at this
    · rw [hf.others k l (by rw [hcfg]; exact hne), hc.others k l hne]
    · rw [hf.view, hc.view]

/-! ### Completion -/

/-- The block an access leaves in the slot it used (20_memory.md R119). -/
def completedBlock (b : Block) (offset c : Nat) : AccessOp → Block
  | .read => { b with ts := c }
  | .write v => { b with ts := c, lines := b.lines.set offset v, dirty := true }

theorem State.complete_cache (s : State) (a j : Nat) (op : AccessOp) :
    (s.complete a j op).2.cache = (s.setBlock (decompose s.cfg a).setIndex j
      (completedBlock (s.block (decompose s.cfg a).setIndex j) (decompose s.cfg a).offset s.accessCounter op)).cache := by
  cases op <;> rfl

@[simp] theorem State.complete_cfg (s : State) (a j : Nat) (op : AccessOp) : (s.complete a j op).2.cfg = s.cfg := by
  cases op <;> rfl

@[simp] theorem State.complete_mem (s : State) (a j : Nat) (op : AccessOp) : (s.complete a j op).2.mem = s.mem := by
  cases op <;> rfl

@[simp] theorem completedBlock_valid (b : Block) (o c : Nat) (op : AccessOp) :
    (completedBlock b o c op).valid = b.valid := by cases op <;> rfl
@[simp] theorem completedBlock_tag (b : Block) (o c : Nat) (op : AccessOp) :
    (completedBlock b o c op).tag = b.tag := by cases op <;> rfl
@[simp] theorem completedBlock_ts (b : Block) (o c : Nat) (op : AccessOp) :
    (completedBlock b o c op).ts = c := by cases op <;> rfl
@[simp] theorem completedBlock_memHead (b : Block) (o c : Nat) (op : AccessOp) :
    (completedBlock b o c op).memHead = b.memHead := by cases op <;> rfl
@[simp] theorem completedBlock_length (b : Block) (o c : Nat) (op : AccessOp) :
    (completedBlock b o c op).lines.length = b.lines.length := by cases op <;> simp [completedBlock]

/-- The word an operation leaves at its address. -/
def AccessOp.result (old : Word) : AccessOp → Word
  | .read => old
  | .write v => v

section
variable {s : State} {a j : Nat}

theorem State.block_complete (h : s.CacheShape) (hc : s.cfg.Legal) (hj : j < s.cfg.blocksPerSet) (op : AccessOp)
    (k l : Nat) :
    (s.complete a j op).2.block k l = if k = (decompose s.cfg a).setIndex ∧ l = j then
      completedBlock (s.block (decompose s.cfg a).setIndex j) (decompose s.cfg a).offset s.accessCounter op
      else s.block k l := by
  rw [State.block_congr (s.complete_cache a j op) (by simp), State.block_setBlock h (setIndex_lt hc a) hj]

theorem State.Consistent.complete (h : s.Consistent) (hj : j < s.cfg.blocksPerSet) (op : AccessOp) :
    (s.complete a j op).2.Consistent := by
  have hi := setIndex_lt h.legal a
  have hb := State.block_complete (a := a) h.shape h.legal hj op
  have hsame : ∀ k l, ((s.complete a j op).2.block k l).valid = (s.block k l).valid ∧
      ((s.complete a j op).2.block k l).tag = (s.block k l).tag ∧
      ((s.complete a j op).2.block k l).memHead = (s.block k l).memHead := by
    intro k l
    rw [hb]
    split
    · rename_i e
      simp [e.1, e.2]
    · exact ⟨rfl, rfl, rfl⟩
  refine ⟨by simpa using h.legal, ?_, by simpa using h.memWf, by simpa using h.memInside, ?_, ?_, ?_⟩
  · exact (h.shape.setBlock (decompose s.cfg a).setIndex j
      (b := completedBlock (s.block (decompose s.cfg a).setIndex j) (decompose s.cfg a).offset s.accessCounter op)
      (by simpa using h.shape.length_lines hi hj)).congr (s.complete_cache a j op) (by simp)
  · intro k hk l hl hkl
    rw [State.complete_cfg] at hk hl ⊢
    obtain ⟨h1, h2, h3⟩ := hsame k l
    rw [h1] at hkl
    rw [h2, h3]
    exact h.heads k hk l hl hkl
  · intro k hk l hl m hm hkl hkm ht
    rw [State.complete_cfg] at hk hl hm
    rw [(hsame k l).1] at hkl
    rw [(hsame k m).1] at hkm
    rw [(hsame k l).2.1, (hsame k m).2.1] at ht
    exact h.tagUnique k hk l hl m hm hkl hkm ht
  · intro k hk l hl hkl hd
    rw [State.complete_cfg] at hk hl ⊢
    obtain ⟨h1, h2, h3⟩ := hsame k l
    rw [h1] at hkl
    rw [h3, State.complete_mem]
    rw [hb] at hd ⊢
    split
    · rename_i e
      rw [if_pos e] at hd
      cases op with
      | read =>
        obtain ⟨rfl, rfl⟩ := e
        exact h.cleanAgrees _ hk _ hl hkl hd
      | write v => simp [completedBlock] at hd
    · rename_i e
      rw [if_neg e] at hd
      exact h.cleanAgrees k hk l hl hkl hd

/-- The completion of an access whose slot holds the address: the word answered, and what every address shows. -/
theorem State.Consistent.view_complete (h : s.Consistent) (hj : j < s.cfg.blocksPerSet)
    (hv : (s.block (decompose s.cfg a).setIndex j).valid = true)
    (ht : (s.block (decompose s.cfg a).setIndex j).tag = (decompose s.cfg a).tag) (op : AccessOp) :
    (s.complete a j op).1 = op.result (s.view a) ∧
      ∀ b, (s.complete a j op).2.view b = if b = a then op.result (s.view a) else s.view b := by
  have h' := h.complete (a := a) hj op
  have hb := State.block_complete (a := a) h.shape h.legal hj op
  have hset := setIndex_lt h.legal a
  have hva := State.view_of_holds h.shape h.tagUnique h.legal hj hv ht
  refine ⟨by cases op <;> simp [State.complete, AccessOp.result, hva], fun b => ?_⟩
  by_cases hex : ∃ l < s.cfg.blocksPerSet, (s.block (decompose s.cfg b).setIndex l).valid = true ∧
      (s.block (decompose s.cfg b).setIndex l).tag = (decompose s.cfg b).tag
  · obtain ⟨l, hl, hlv, hlt⟩ := hex
    rw [State.view_of_holds h.shape h.tagUnique h.legal hl hlv hlt]
    by_cases hc : (decompose s.cfg b).setIndex = (decompose s.cfg a).setIndex ∧ l = j
    · have hvb : (s.complete a j op).2.view b =
          (completedBlock (s.block (decompose s.cfg a).setIndex j) (decompose s.cfg a).offset
            s.accessCounter op).lines.getD (decompose s.cfg b).offset 0 := by
        rw [State.view_of_holds h'.shape h'.tagUnique h'.legal (j := j)]
        · rw [State.complete_cfg, hb, if_pos ⟨hc.1, rfl⟩]
        · simpa using hj
        · rw [State.complete_cfg, hb, if_pos ⟨hc.1, rfl⟩]
          simpa using hv
        · rw [State.complete_cfg, hb, if_pos ⟨hc.1, rfl⟩]
          rw [hc.1, hc.2] at hlt
          simpa using hlt
      rw [hvb, hva, hc.1, hc.2]
      have hiff : (decompose s.cfg b).offset = (decompose s.cfg a).offset ↔ b = a := by
        constructor
        · intro e
          rw [hc.1, hc.2, ht] at hlt
          rw [← blockHead_add_offset s.cfg b, ← blockHead_add_offset s.cfg a, blockHead_eq h.legal b,
            blockHead_eq h.legal a, hc.1, ← hlt, e]
        · rintro rfl
          rfl
      have ho := offset_lt h.legal a
      have hlen := h.shape.length_lines hset hj
      cases op with
      | read =>
        simp only [completedBlock, AccessOp.result]
        split
        · rename_i e
          rw [e]
        · rfl
      | write v =>
        simp only [completedBlock, AccessOp.result, List.getD, List.getElem?_set]
        by_cases e : b = a
        · rw [if_pos (hiff.2 e).symm, if_pos e, hlen, if_pos ho]
          rfl
        · rw [if_neg (fun x => e (hiff.1 x.symm)), if_neg e]
    · have hne : b ≠ a := by
        rintro rfl
        exact hc ⟨rfl, h.tagUnique _ hset l hl j hj hlv hv (hlt.trans ht.symm)⟩
      rw [if_neg hne, State.view_of_holds h'.shape h'.tagUnique h'.legal (j := l)]
      · rw [State.complete_cfg, hb, if_neg hc]
      · simpa using hl
      · rw [State.complete_cfg, hb, if_neg hc]
        exact hlv
      · rw [State.complete_cfg, hb, if_neg hc]
        exact hlt
  · have hn : ∀ l < s.cfg.blocksPerSet, ¬((s.block (decompose s.cfg b).setIndex l).valid = true ∧
        (s.block (decompose s.cfg b).setIndex l).tag = (decompose s.cfg b).tag) :=
      fun l hl hh => hex ⟨l, hl, hh⟩
    have hne : b ≠ a := by
      rintro rfl
      exact hn j hj ⟨hv, ht⟩
    rw [if_neg hne, State.view_of_absent h.shape h.legal hn, State.view_of_absent h'.shape h'.legal,
      State.complete_mem]
    intro l hl
    rw [State.complete_cfg] at hl ⊢
    rw [hb]
    split
    · rename_i e
      rw [completedBlock_valid, completedBlock_tag, ← e.1, ← e.2]
      exact hn l hl
    · exact hn l hl

end

/-! ### The whole access -/

/-- What an access inside memory does, once: the word it answers, what every address shows afterwards, that the
invariants stay, and the fields it leaves alone (20_memory.md R119, R140, R165). -/
structure Accessed (s : State) (a : Nat) (op : AccessOp) : Prop where
  word : (s.accessInRange a op).1 = op.result (s.view a)
  view : ∀ b, (s.accessInRange a op).2.view b = if b = a then op.result (s.view a) else s.view b
  coherent : (s.accessInRange a op).2.Coherent
  engine : SameEngine s (s.accessInRange a op).2
  counter : (s.accessInRange a op).2.accessCounter = s.accessCounter + 1

theorem State.Coherent.accessed {s : State} (h : s.Coherent) {a : Nat} (ha : a < s.cfg.memWords) (op : AccessOp) :
    Accessed s a op := by
  have hl := h.consistent.locate ha
  obtain ⟨he, hac⟩ := s.locate_sameEngine a
  have hj : (s.locate a).1 < (s.locate a).2.cfg.blocksPerSet := by rw [he.cfg]; exact hl.slot_lt
  have hc := hl.consistent.view_complete (a := a) hj (by rw [he.cfg]; exact hl.valid) (by rw [he.cfg]; exact hl.tag) op
  have hb := State.block_complete (a := a) hl.consistent.shape hl.consistent.legal hj op
  rw [he.cfg, hac] at hb
  obtain ⟨hengine, hcounter⟩ := s.accessInRange_sameEngine a op
  have hcfg : ((s.locate a).2.complete a (s.locate a).1 op).2.cfg = s.cfg := hengine.cfg
  refine ⟨by rw [← hl.view a]; exact hc.1, fun b => ?_, ⟨hl.consistent.complete hj op, ?_, ?_⟩, hengine, hcounter⟩
  · rw [← hl.view a, ← hl.view b]
    exact hc.2 b
  · show ((s.locate a).2.complete a (s.locate a).1 op).2.StampsBelow
    have hcounter' : ((s.locate a).2.complete a (s.locate a).1 op).2.accessCounter = s.accessCounter + 1 := hcounter
    intro k hk l hlt hkl
    rw [hcfg] at hk hlt
    rw [hcounter', hb] at *
    split
    · simp
    · rename_i hne
      rw [if_neg hne, hl.others k l hne] at hkl
      rw [hl.others k l hne]
      exact (h.stampsBelow k hk l hlt hkl).trans (Nat.lt_succ_self _)
  · show ((s.locate a).2.complete a (s.locate a).1 op).2.StampsDistinct
    intro k hk l hlt m hm hkl hkm hts
    rw [hcfg] at hk hlt hm
    rw [hb] at hkl hts
    rw [hb] at hkm hts
    by_cases h1 : k = (decompose s.cfg a).setIndex ∧ l = (s.locate a).1
    · by_cases h2 : k = (decompose s.cfg a).setIndex ∧ m = (s.locate a).1
      · rw [h1.2, h2.2]
      · rw [if_pos h1, if_neg h2, hl.others k m h2, completedBlock_ts] at hts
        rw [if_neg h2, hl.others k m h2] at hkm
        exact absurd (h.stampsBelow k hk m hm hkm) (by omega)
    · rw [if_neg h1, hl.others k l h1] at hkl hts
      by_cases h2 : k = (decompose s.cfg a).setIndex ∧ m = (s.locate a).1
      · rw [if_pos h2, completedBlock_ts] at hts
        exact absurd (h.stampsBelow k hk l hlt hkl) (by omega)
      · rw [if_neg h2, hl.others k m h2] at hkm hts
        exact h.stampsDistinct k hk l hlt m hm hkl hkm hts

/-- The two answers of an access (20_memory.md R119, R145). -/
theorem State.access_cases (s : State) (a : Int) (op : AccessOp) (cause : Cause) :
    (InRange s.cfg a ∧
        s.access a op cause = .done (s.accessInRange a.toNat op).1 (s.accessInRange a.toNat op).2) ∨
      (¬InRange s.cfg a ∧ s.access a op cause = .fatal (s.raiseFatal cause (some a))) := by
  unfold State.access
  split
  · exact .inl ⟨‹_›, rfl⟩
  · exact .inr ⟨‹_›, rfl⟩

theorem InRange.toNat_lt {cfg : Config} {a : Int} (h : InRange cfg a) : a.toNat < cfg.memWords := by
  obtain ⟨h1, h2⟩ := h
  omega

end Sys2Proof.Machine
end

