-- ==== Sys2Proof/Laws/Decode.lean ====
section
/-! SUPPORT. What the encoder's words hold in each field, and what the sign extension gives back (30_encoding.md R201,
R204, R211). -/

namespace Sys2Proof

theorem opcodeValue_lt (op : Opcode) : opcodeValue op < 8 := by cases op <;> decide

theorem lowBits_lt (l : Int) : (l % 65536).toNat < 65536 := by omega

theorem lowField_lt (w : Word) : lowField w < 65536 := Nat.mod_lt _ (by decide)

theorem toNat_encodeFields (op : Opcode) (a b : RegIdx) (l : Int) :
    (encodeFields op a b l).toNat =
      opcodeValue op * 2 ^ 22 + a.val * 2 ^ 19 + b.val * 2 ^ 16 + (l % 65536).toNat := by
  have hop := opcodeValue_lt op
  have hl := lowBits_lt l
  rw [encodeFields, BitVec.toNat_ofNat]
  omega

theorem regAField_encodeFields (op : Opcode) (a b : RegIdx) (l : Int) :
    regAField (encodeFields op a b l) = a := by
  have hl := lowBits_lt l
  apply Fin.ext
  simp only [regAField, regField, bitField, toNat_encodeFields]
  omega

theorem regBField_encodeFields (op : Opcode) (a b : RegIdx) (l : Int) :
    regBField (encodeFields op a b l) = b := by
  have hl := lowBits_lt l
  apply Fin.ext
  simp only [regBField, regField, bitField, toNat_encodeFields]
  omega

theorem lowField_encodeFields (op : Opcode) (a b : RegIdx) (l : Int) :
    lowField (encodeFields op a b l) = (l % 65536).toNat := by
  have hl := lowBits_lt l
  simp only [lowField, bitField, toNat_encodeFields]
  omega

theorem opcodeField_encodeFields (op : Opcode) (a b : RegIdx) (l : Int) :
    opcodeField (encodeFields op a b l) = op := by
  have hl := lowBits_lt l
  have hop := opcodeValue_lt op
  have h : regField (encodeFields op a b l) 22 = ⟨opcodeValue op, hop⟩ := by
    apply Fin.ext
    simp only [regField, bitField, toNat_encodeFields]
    omega
  rw [opcodeField, h]
  cases op <;> rfl

/-- The opcode map and its inverse. -/
theorem opcodeValue_opcodeOfField (n : Fin 8) : opcodeValue (opcodeOfField n) = n.val := by
  revert n
  decide

theorem signExtend16_range {n : Nat} (h : n < 65536) : -32768 ≤ signExtend16 n ∧ signExtend16 n ≤ 32767 := by
  unfold signExtend16
  split <;> omega

theorem signExtend16_lowBits {l : Int} (lo : -32768 ≤ l) (hi : l ≤ 32767) :
    signExtend16 (l % 65536).toNat = l := by
  unfold signExtend16
  split <;> omega

theorem lowBits_signExtend16 {n : Nat} (h : n < 65536) : (signExtend16 n % 65536).toNat = n := by
  unfold signExtend16
  split <;> omega

end Sys2Proof
end

