-- ==== Sys2Proof/Laws/PerInstr.lean ====
section
/-! SUPPORT. The family `Encoded`: every well-formed instruction's word has bits 31..25 zero (30_encoding.md R211), one
lemma per constructor. -/

namespace Sys2Proof.Laws.Encoded

/-- The word of a well-formed instruction uses the 25 low bits only, so it is its own decimal program-input line. -/
def Statement (i : Instr) : Prop := i.wellFormed = true → (encode i).toNat < 2 ^ 25

theorem encodeFields_lt (op : Opcode) (a b : RegIdx) (l : Int) : (encodeFields op a b l).toNat < 2 ^ 25 := by
  have hop : opcodeValue op < 8 := by cases op <;> decide
  have hl : (l % 65536).toNat < 65536 := by omega
  simp only [encodeFields, BitVec.toNat_ofNat]
  omega

theorem add (regA regB : RegIdx) (low : Nat) : Statement (.add regA regB low) := fun _ => encodeFields_lt ..
theorem nand (regA regB : RegIdx) (low : Nat) : Statement (.nand regA regB low) := fun _ => encodeFields_lt ..
theorem lw (regA regB : RegIdx) (offset : Int) : Statement (.lw regA regB offset) := fun _ => encodeFields_lt ..
theorem sw (regA regB : RegIdx) (offset : Int) : Statement (.sw regA regB offset) := fun _ => encodeFields_lt ..
theorem beq (regA regB : RegIdx) (offset : Int) : Statement (.beq regA regB offset) := fun _ => encodeFields_lt ..
theorem cmov (regA regB : RegIdx) (low : Nat) : Statement (.cmov regA regB low) := fun _ => encodeFields_lt ..
theorem halt : Statement .halt := fun _ => encodeFields_lt ..
theorem noop : Statement .noop := fun _ => encodeFields_lt ..

end Sys2Proof.Laws.Encoded
end

