-- ==== Sys2Proof/Laws/Register.lean ====
section
/-! SUPPORT. The laws of the register file, of the destination guard and of the operand forms. -/

namespace Sys2Proof.Machine

theorem State.reg_setReg (s : State) (r q : RegIdx) (v : Word) :
    (s.setReg r v).reg q = if q = r then v else s.reg q := by
  simp only [State.reg, State.setReg_regs, Vector.get_eq_getElem, Vector.getElem_set]
  by_cases h : q = r
  · simp [h]
  · rw [if_neg h, if_neg fun e => h (Fin.ext e.symm)]

@[simp] theorem State.reg_setReg_self (s : State) (r : RegIdx) (v : Word) : (s.setReg r v).reg r = v := by
  simp [State.reg_setReg]

theorem State.reg_setReg_ne (s : State) {r q : RegIdx} (h : q ≠ r) (v : Word) :
    (s.setReg r v).reg q = s.reg q := by
  simp [State.reg_setReg, h]

/-- Two states with the same register file read the same registers. -/
theorem State.reg_congr {s t : State} (h : t.regs = s.regs) (r : RegIdx) : t.reg r = s.reg r := by
  simp only [State.reg, h]

/-- The guard passes exactly on the field values 1 to 7, and names that register. -/
theorem checkDest_ok {cfg : Config} {low : Nat} {dest : RegIdx} :
    checkDest cfg low = .ok dest ↔ destField cfg low = dest.val ∧ dest ≠ 0 := by
  unfold checkDest
  split
  · rename_i h0
    simp only [reduceCtorEq, false_iff, not_and, not_not]
    intro hd
    exact Fin.ext (by rw [← hd, h0]; rfl)
  · rename_i h0
    split
    · rw [Except.ok.injEq, Fin.ext_iff]
      constructor
      · intro hd
        exact ⟨hd, fun e => h0 (by rw [show destField cfg low = dest.val from hd, e]; rfl)⟩
      · exact fun hd => hd.1
    · rename_i h8
      simp only [reduceCtorEq, false_iff, not_and]
      intro hd
      exact absurd (hd ▸ dest.isLt) h8

/-- The guard raises `DEST_ZERO` on the field value 0 and `DEST_RANGE` above 7, nothing else. -/
theorem checkDest_error {cfg : Config} {low : Nat} {cause : Cause} :
    checkDest cfg low = .error cause ↔
      (destField cfg low = 0 ∧ cause = .destZero) ∨ (8 ≤ destField cfg low ∧ cause = .destRange) := by
  unfold checkDest
  split
  · rename_i h0
    simp [h0, eq_comm]
  · rename_i h0
    split
    · rename_i h8
      simp only [reduceCtorEq, false_iff]
      omega
    · rename_i h8
      simp [h0, not_lt.1 h8, eq_comm]

/-- With a 16-bit destination field the load guard is zero exactly for the offset 0 (30_encoding.md R206). -/
theorem loadGuardField_bits16 {cfg : Config} (h : cfg.destFieldBits = .bits16) {offset : Int}
    (lo : -32768 ≤ offset) (hi : offset ≤ 32767) : loadGuardField cfg offset = 0 ↔ offset = 0 := by
  simp only [loadGuardField, h, DestFieldBits.width]
  omega

end Sys2Proof.Machine
end

