-- ==== Sys2Proof/Laws/Step.lean ====
section
/-! SUPPORT. What each meaning, the fetch and the step can answer, each said once. -/

namespace Sys2Proof.Machine

/-! ### Properties of the memory system alone -/

theorem State.view_congr {s t : State} (hg : t.cfg = s.cfg) (hc : t.cache = s.cache) (hm : t.mem = s.mem) (a : Nat) :
    t.view a = s.view a := by
  simp only [State.view, State.lookup, State.cacheSet, State.block, hg, hc, hm]

theorem State.Coherent.congr {s t : State} (h : s.Coherent) (hg : t.cfg = s.cfg) (hc : t.cache = s.cache)
    (hm : t.mem = s.mem) (hn : t.accessCounter = s.accessCounter) : t.Coherent := by
  have hb := State.block_congr hc hg
  obtain ⟨⟨h1, h2, h3, h4, h5, h6, h7⟩, h8, h9⟩ := h
  refine ⟨⟨?_, h2.congr hc hg, ?_, ?_, ?_, ?_, ?_⟩, ?_, ?_⟩
  · rw [hg]; exact h1
  · rw [hm]; exact h3
  · rw [hm, hg]; exact h4
  · simpa only [State.BlockHeads, hb, hg] using h5
  · simpa only [State.TagUnique, hb, hg] using h6
  · simpa only [State.CleanAgrees, hb, hg, hm] using h7
  · simpa only [State.StampsBelow, hb, hg, hn] using h8
  · simpa only [State.StampsDistinct, hb, hg] using h9

/-! ### Meanings -/

/-- A guarded write takes the guard's cause or writes one register and moves the pc (60_exceptions.md R454). -/
theorem writeGuarded_cases (low : Nat) (v : Word) (s : State) :
    (∃ cause, checkDest s.cfg low = .error cause ∧ writeGuarded low v s = s.raiseFatal cause none) ∨
      (∃ dest, checkDest s.cfg low = .ok dest ∧ writeGuarded low v s = (s.setReg dest v).advancePc) := by
  unfold writeGuarded
  split
  · exact .inl ⟨_, ‹_›, rfl⟩
  · exact .inr ⟨_, ‹_›, rfl⟩

theorem execCmov_cases (regA regB : RegIdx) (low : Nat) (s : State) :
    (∃ cause, checkDest s.cfg low = .error cause ∧ execCmov regA regB low s = .next (s.raiseFatal cause none)) ∨
      (∃ dest, checkDest s.cfg low = .ok dest ∧
        ((s.reg regB ≠ 0 ∧ execCmov regA regB low s = .next (s.setReg dest (s.reg regA)).advancePc) ∨
          (s.reg regB = 0 ∧ execCmov regA regB low s = .next s.advancePc))) := by
  unfold execCmov
  split
  · exact .inl ⟨_, ‹_›, rfl⟩
  · refine .inr ⟨_, ‹_›, ?_⟩
    by_cases h : s.reg regB = 0
    · exact .inr ⟨h, by simp [nonZeroPattern, h]⟩
    · exact .inl ⟨h, by rw [if_pos (by simpa [nonZeroPattern] using h)]⟩

theorem execLw_cases (regA regB : RegIdx) (offset : Int) (s : State) :
    (loadGuardField s.cfg offset = 0 ∧ execLw regA regB offset s = .next (s.raiseFatal .destZero none)) ∨
      (loadGuardField s.cfg offset ≠ 0 ∧ ¬InRange s.cfg (effectiveAddress s regA offset) ∧
        execLw regA regB offset s =
          .next (s.raiseFatal .dataBounds (some (effectiveAddress s regA offset)))) ∨
      (loadGuardField s.cfg offset ≠ 0 ∧ InRange s.cfg (effectiveAddress s regA offset) ∧
        execLw regA regB offset s =
          .next (((s.accessInRange (effectiveAddress s regA offset).toNat .read).2.setReg regB
            (s.accessInRange (effectiveAddress s regA offset).toNat .read).1).advancePc)) := by
  unfold execLw State.cacheRead
  split
  · exact .inl ⟨‹_›, rfl⟩
  · rename_i hg
    rcases s.access_cases (effectiveAddress s regA offset) .read .dataBounds with ⟨hr, he⟩ | ⟨hr, he⟩
    · exact .inr (.inr ⟨hg, hr, by rw [he]⟩)
    · exact .inr (.inl ⟨hg, hr, by rw [he]⟩)

theorem execSw_cases (regA regB : RegIdx) (offset : Int) (s : State) :
    (¬InRange s.cfg (effectiveAddress s regA offset) ∧
        execSw regA regB offset s =
          .next (s.raiseFatal .dataBounds (some (effectiveAddress s regA offset)))) ∨
      (InRange s.cfg (effectiveAddress s regA offset) ∧
        execSw regA regB offset s =
          .next (s.accessInRange (effectiveAddress s regA offset).toNat (.write (s.reg regB))).2.advancePc) := by
  unfold execSw State.cacheWrite
  rcases s.access_cases (effectiveAddress s regA offset) (.write (s.reg regB)) .dataBounds with ⟨hr, he⟩ | ⟨hr, he⟩
  · exact .inr ⟨hr, by rw [he]⟩
  · exact .inl ⟨hr, by rw [he]⟩

theorem execBeq_cases (regA regB : RegIdx) (offset : Int) (s : State) :
    (s.reg regA = s.reg regB ∧ execBeq regA regB offset s = .next (s.setPc (branchTarget s offset))) ∨
      (s.reg regA ≠ s.reg regB ∧ execBeq regA regB offset s = .next s.advancePc) := by
  by_cases h : s.reg regA = s.reg regB <;> simp [execBeq, samePattern, h]

/-- The fatal conditions an executing instruction can raise, with the address each records (60_exceptions.md R450). -/
inductive Raises (s : State) : State → Prop
  | destZero : Raises s (s.raiseFatal .destZero none)
  | destRange : Raises s (s.raiseFatal .destRange none)
  | dataBounds (a : Int) : Raises s (s.raiseFatal .dataBounds (some a))

theorem Raises.of_checkDest {s : State} {low : Nat} {cause : Cause} (h : checkDest s.cfg low = .error cause) :
    Raises s (s.raiseFatal cause none) := by
  rcases checkDest_error.1 h with ⟨-, rfl⟩ | ⟨-, rfl⟩
  · exact .destZero
  · exact .destRange

/-- Everything an instruction can do, said once (the rules of 41_register.md, 42_memory_access.md, 43_control.md). -/
inductive Executes (s : State) : Instr → State → Prop
  | trap {i : Instr} {t : State} (h : Raises s t) : Executes s i t
  | addDone {regA regB : RegIdx} {low : Nat} (dest : RegIdx) (hd : checkDest s.cfg low = .ok dest) :
      Executes s (.add regA regB low) (s.setReg dest (sumWord (s.reg regA) (s.reg regB))).advancePc
  | nandDone {regA regB : RegIdx} {low : Nat} (dest : RegIdx) (hd : checkDest s.cfg low = .ok dest) :
      Executes s (.nand regA regB low) (s.setReg dest (nandWord (s.reg regA) (s.reg regB))).advancePc
  | cmovMoves {regA regB : RegIdx} {low : Nat} (dest : RegIdx) (hd : checkDest s.cfg low = .ok dest)
      (hc : s.reg regB ≠ 0) : Executes s (.cmov regA regB low) (s.setReg dest (s.reg regA)).advancePc
  | cmovSkips {regA regB : RegIdx} {low : Nat} (dest : RegIdx) (hd : checkDest s.cfg low = .ok dest)
      (hc : s.reg regB = 0) : Executes s (.cmov regA regB low) s.advancePc
  | lwDone {regA regB : RegIdx} {offset : Int} (hr : InRange s.cfg (effectiveAddress s regA offset)) :
      Executes s (.lw regA regB offset)
        ((s.accessInRange (effectiveAddress s regA offset).toNat .read).2.setReg regB
          (s.accessInRange (effectiveAddress s regA offset).toNat .read).1).advancePc
  | swDone {regA regB : RegIdx} {offset : Int} (hr : InRange s.cfg (effectiveAddress s regA offset)) :
      Executes s (.sw regA regB offset)
        (s.accessInRange (effectiveAddress s regA offset).toNat (.write (s.reg regB))).2.advancePc
  | beqTaken {regA regB : RegIdx} {offset : Int} (hc : s.reg regA = s.reg regB) :
      Executes s (.beq regA regB offset) (s.setPc (branchTarget s offset))
  | beqPasses {regA regB : RegIdx} {offset : Int} (hc : s.reg regA ≠ s.reg regB) :
      Executes s (.beq regA regB offset) s.advancePc
  | haltDone : Executes s .halt s.advancePc.setHalted
  | noopDone : Executes s .noop s.advancePc

/-- The inversion of `exec`: a next state is one of the ways of `Executes`. -/
theorem exec_cases {i : Instr} {s t : State} (h : exec i s = .next t) : Executes s i t := by
  cases i with
  | add a b low =>
    cases h
    rcases writeGuarded_cases low (sumWord (s.reg a) (s.reg b)) s with ⟨cause, hd, e⟩ | ⟨dest, hd, e⟩ <;> rw [e]
    · exact .trap (.of_checkDest hd)
    · exact .addDone dest hd
  | nand a b low =>
    cases h
    rcases writeGuarded_cases low (nandWord (s.reg a) (s.reg b)) s with ⟨cause, hd, e⟩ | ⟨dest, hd, e⟩ <;> rw [e]
    · exact .trap (.of_checkDest hd)
    · exact .nandDone dest hd
  | lw a b o =>
    change execLw a b o s = _ at h
    rcases execLw_cases a b o s with ⟨-, e⟩ | ⟨-, -, e⟩ | ⟨-, hr, e⟩ <;> rw [e] at h <;> cases h
    · exact .trap .destZero
    · exact .trap (.dataBounds _)
    · exact .lwDone hr
  | sw a b o =>
    change execSw a b o s = _ at h
    rcases execSw_cases a b o s with ⟨-, e⟩ | ⟨hr, e⟩ <;> rw [e] at h <;> cases h
    · exact .trap (.dataBounds _)
    · exact .swDone hr
  | beq a b o =>
    change execBeq a b o s = _ at h
    rcases execBeq_cases a b o s with ⟨hc, e⟩ | ⟨hc, e⟩ <;> rw [e] at h <;> cases h
    · exact .beqTaken hc
    · exact .beqPasses hc
  | cmov a b low =>
    change execCmov a b low s = _ at h
    rcases execCmov_cases a b low s with ⟨cause, hd, e⟩ | ⟨dest, hd, ⟨hc, e⟩ | ⟨hc, e⟩⟩ <;> rw [e] at h <;> cases h
    · exact .trap (.of_checkDest hd)
    · exact .cmovMoves dest hd hc
    · exact .cmovSkips dest hd hc
  | halt => cases h; exact .haltDone
  | noop => cases h; exact .noopDone

/-- Every instruction answers a next state. -/
theorem exec_next (i : Instr) (s : State) : ∃ t, exec i s = .next t := by
  cases i with
  | add => exact ⟨_, rfl⟩
  | nand => exact ⟨_, rfl⟩
  | lw a b o => rcases execLw_cases a b o s with ⟨-, h⟩ | ⟨-, -, h⟩ | ⟨-, -, h⟩ <;> exact ⟨_, h⟩
  | sw a b o => rcases execSw_cases a b o s with ⟨-, h⟩ | ⟨-, h⟩ <;> exact ⟨_, h⟩
  | beq a b o => rcases execBeq_cases a b o s with ⟨-, h⟩ | ⟨-, h⟩ <;> exact ⟨_, h⟩
  | cmov a b l =>
    rcases execCmov_cases a b l s with ⟨_, -, h⟩ | ⟨_, -, ⟨-, h⟩ | ⟨-, h⟩⟩ <;> exact ⟨_, h⟩
  | halt => exact ⟨_, rfl⟩
  | noop => exact ⟨_, rfl⟩

/-- No instruction writes the configuration, the populated count, the instruction counter or the fetched word. -/
theorem Executes.sameFixed {i : Instr} {s t : State} (h : Executes s i t) : SameFixed s t := by
  cases h with
  | trap h => cases h <;> exact ⟨rfl, rfl, rfl, rfl⟩
  | @lwDone regA regB offset hr =>
    have e := (s.accessInRange_sameEngine (effectiveAddress s regA offset).toNat .read).1
    exact ⟨e.cfg, e.populated, e.icount, e.fetched⟩
  | @swDone regA regB offset hr =>
    have e := (s.accessInRange_sameEngine (effectiveAddress s regA offset).toNat (.write (s.reg regB))).1
    exact ⟨e.cfg, e.populated, e.icount, e.fetched⟩
  | _ => exact ⟨rfl, rfl, rfl, rfl⟩

/-! ### Fetch, count, step -/

/-- The two answers of the fetch (40_engine.md R251, 60_exceptions.md R452). -/
theorem State.fetch_cases (s : State) :
    (InRange s.cfg s.pc ∧
        s.fetch = .done ((s.setFetched none).accessInRange s.pc.toNat .read).1
          (((s.setFetched none).accessInRange s.pc.toNat .read).2.setFetched
            (some ((s.setFetched none).accessInRange s.pc.toNat .read).1))) ∨
      (¬InRange s.cfg s.pc ∧ s.fetch = .fatal ((s.setFetched none).raiseFatal .fetchBounds (some s.pc))) := by
  unfold State.fetch State.cacheRead
  rcases (s.setFetched none).access_cases s.pc .read .fetchBounds with ⟨hr, he⟩ | ⟨hr, he⟩
  · exact .inl ⟨hr, by rw [he]⟩
  · exact .inr ⟨hr, by rw [he]⟩

@[simp] theorem State.retire_cfg (s : State) : s.retire.cfg = s.cfg := by
  unfold State.retire; split <;> rfl
@[simp] theorem State.retire_regs (s : State) : s.retire.regs = s.regs := by
  unfold State.retire; split <;> rfl
@[simp] theorem State.retire_pc (s : State) : s.retire.pc = s.pc := by
  unfold State.retire; split <;> rfl
@[simp] theorem State.retire_status (s : State) : s.retire.status = s.status := by
  unfold State.retire; split <;> rfl
@[simp] theorem State.retire_accessCounter (s : State) : s.retire.accessCounter = s.accessCounter := by
  unfold State.retire; split <;> rfl
@[simp] theorem State.retire_cache (s : State) : s.retire.cache = s.cache := by
  unfold State.retire; split <;> rfl
@[simp] theorem State.retire_mem (s : State) : s.retire.mem = s.mem := by
  unfold State.retire; split <;> rfl
@[simp] theorem State.retire_populated (s : State) : s.retire.populated = s.populated := by
  unfold State.retire; split <;> rfl
@[simp] theorem State.retire_trace (s : State) : s.retire.trace = s.trace := by
  unfold State.retire; split <;> rfl
@[simp] theorem State.retire_fetched (s : State) : s.retire.fetched = none := by
  unfold State.retire; split <;> rfl
@[simp] theorem State.reg_retire (s : State) (q : RegIdx) : s.retire.reg q = s.reg q := by
  unfold State.retire; split <;> rfl
@[simp] theorem State.view_retire (s : State) (a : Nat) : s.retire.view a = s.view a := by
  unfold State.retire; split <;> rfl
@[simp] theorem State.isFaulted_retire (s : State) : s.retire.isFaulted = s.isFaulted := by
  simp only [State.isFaulted, State.retire_status]

/-- The fields a completed fetch leaves alone, the word it keeps, and its one access. -/
theorem State.fetch_engine {s u : State} {w : Word} (h : s.fetch = .done w u) :
    u.cfg = s.cfg ∧ u.regs = s.regs ∧ u.pc = s.pc ∧ u.status = s.status ∧ u.icount = s.icount ∧
      u.populated = s.populated ∧ u.fetched = some w ∧ u.accessCounter = s.accessCounter + 1 ∧
      InRange s.cfg s.pc := by
  rcases s.fetch_cases with ⟨hr, he⟩ | ⟨hr, he⟩
  · rw [he] at h
    cases h
    obtain ⟨e, c⟩ := (s.setFetched none).accessInRange_sameEngine s.pc.toNat .read
    exact ⟨e.cfg, e.regs, e.pc, e.status, e.icount, e.populated, rfl, c, hr⟩
  · rw [he] at h
    cases h

/-- A fetch from a coherent state answers the view of the pc, and keeps every view and the invariants. -/
theorem State.Coherent.fetch_view {s u : State} {w : Word} (h : s.Coherent) (hf : s.fetch = .done w u) :
    w = s.view s.pc.toNat ∧ (∀ b, u.view b = s.view b) ∧ u.Coherent := by
  rcases s.fetch_cases with ⟨hr, he⟩ | ⟨-, he⟩
  · rw [he] at hf
    cases hf
    have hA := (h.congr (t := s.setFetched none) rfl rfl rfl rfl).accessed (a := s.pc.toNat) hr.toNat_lt .read
    refine ⟨hA.word, fun b => ?_, hA.coherent.congr rfl rfl rfl rfl⟩
    rw [State.view_setFetched, hA.view]
    split
    · rename_i e
      rw [e]
      rfl
    · rfl
  · rw [he] at hf
    cases hf

theorem State.retire_faulted {s : State} {r : FaultRecord} (h : s.status = .faulted r) :
    s.retire = s.setFetched none := by simp only [State.retire, h]

theorem State.retire_counted {s : State} (h : s.isFaulted = false) : s.retire = s.counted := by
  unfold State.retire
  unfold State.isFaulted at h
  split <;> simp_all [State.counted, State.setFetched]

/-- The step of a running engine whose fetch completes. -/
theorem step_of_fetch {s u v : State} {w : Word} (hs : s.status = .running) (hf : s.fetch = .done w u)
    (he : exec (decode w) u = .next v) : step s = .next v.retire := by
  simp only [step, hs, hf, he, retireOutcome]

/-- The two ways a step out of `Running` ends: a fetch out of bounds, or the decoded instruction executed. -/
theorem step_cases {s t : State} (h : step s = .next t) :
    s.status = .running ∧
      ((¬InRange s.cfg s.pc ∧ t = (s.setFetched none).raiseFatal .fetchBounds (some s.pc)) ∨
        (∃ w u v, s.fetch = .done w u ∧ exec (decode w) u = .next v ∧ t = v.retire)) := by
  unfold step at h
  split at h
  · cases h
  · cases h
  · rename_i hs
    refine ⟨hs, ?_⟩
    rcases s.fetch_cases with ⟨hr, he⟩ | ⟨hr, he⟩
    · rw [he] at h
      obtain ⟨v, hv⟩ := exec_next (decode ((s.setFetched none).accessInRange s.pc.toNat .read).1)
        (((s.setFetched none).accessInRange s.pc.toNat .read).2.setFetched
            (some ((s.setFetched none).accessInRange s.pc.toNat .read).1))
      refine .inr ⟨_, _, v, he, hv, ?_⟩
      simp only [hv, retireOutcome, Host.Outcome.next.injEq] at h
      exact h.symm
    · rw [he] at h
      simp only [Host.Outcome.next.injEq] at h
      exact .inl ⟨hr, h.symm⟩

end Sys2Proof.Machine
end

