-- ==== Sys2Proof/Tests/Slice0.lean ====
section
/-! SUPPORT. The model's own tests: words and results taken from 95_test_vectors.md (or worked by hand from the rule cited),
and for each statement with hypotheses a concrete state and operands that meet them. -/

namespace Sys2Proof.Tests

open Sys2Proof Sys2Proof.Machine

/-! ### Helpers -/

/-- The next state of an outcome, where there is one. -/
def nextOf : Host.Outcome State Fault Refusal → Option State
  | .next s => some s
  | _ => none

theorem exists_next {o : Host.Outcome State Fault Refusal} (h : (nextOf o).isSome = true) : ∃ t, o = .next t := by
  cases o with
  | next t => exact ⟨t, rfl⟩
  | fault r => cases h
  | refused r => cases h

/-- The state after an access, or the faulted one. -/
def stateOf : AccessResult → State
  | .done _ s => s
  | .fatal s => s

/-- A hardware with a small memory: `(BLOCK_SIZE, NUM_SETS, BLOCKS_PER_SET)` and `MEM_WORDS`. -/
def small (b n k m : Nat) : Config :=
  { Config.hardware with blockSize := b, numSets := n, blocksPerSet := k, memWords := m }

/-- Two-word blocks, two sets of two. -/
def cfg : Config := small 2 2 2 16

/-- One set of one one-word block. -/
def tiny : Config := small 1 1 1 16

/-- The 3-bit destination field. -/
def narrow : Config := { cfg with destFieldBits := .bits3 }

/-- `mem[a] = 100 + a`, `r1 = 5`, `r2 = 3`, `r3 = -1`. -/
def start (c : Config) : State :=
  ((((State.initial c).loadProgram ((List.range 16).map fun a => BitVec.ofNat 32 (100 + a))).setReg 1 5).setReg 2 3).setReg
    3 (wrap32 (-1))

/-- A program at address 0 under the one-block cache. -/
def prog (ws : List Word) : State := (State.initial tiny).loadProgram ws

/-- After a write to address 5: its block is in set 0, dirty. -/
def warm : State := stateOf ((start cfg).cacheWrite 5 7 .dataBounds)

/-- The one-block cache holding address 3, dirty. -/
def dirtyFull : State := stateOf ((start tiny).cacheWrite 3 7 .dataBounds)

/-- The one-block cache holding address 3, clean. -/
def cleanFull : State := stateOf ((start tiny).cacheRead 3 .dataBounds)

theorem legal_cfg : cfg.Legal := by constructor <;> decide
theorem legal_tiny : tiny.Legal := by constructor <;> decide
theorem legal_hardware : Config.hardware.Legal := by constructor <;> decide

set_option synthInstance.maxSize 2000 in
theorem coherent_start : (start cfg).Coherent := by
  refine ⟨⟨legal_cfg, ?_, ?_, ?_, ?_, ?_, ?_⟩, ?_, ?_⟩ <;> decide
set_option synthInstance.maxSize 2000 in
theorem coherent_tiny : (start tiny).Coherent := by
  refine ⟨⟨legal_tiny, ?_, ?_, ?_, ?_, ?_, ?_⟩, ?_, ?_⟩ <;> decide
set_option synthInstance.maxSize 2000 in
theorem coherent_warm : warm.Coherent := by
  refine ⟨⟨legal_cfg, ?_, ?_, ?_, ?_, ?_, ?_⟩, ?_, ?_⟩ <;> decide
set_option synthInstance.maxSize 2000 in
theorem coherent_dirtyFull : dirtyFull.Coherent := by
  refine ⟨⟨legal_tiny, ?_, ?_, ?_, ?_, ?_, ?_⟩, ?_, ?_⟩ <;> decide
set_option synthInstance.maxSize 2000 in
theorem coherent_cleanFull : cleanFull.Coherent := by
  refine ⟨⟨legal_tiny, ?_, ?_, ?_, ?_, ?_, ?_⟩, ?_, ?_⟩ <;> decide

/-! ### Well-formedness: each check refuses an ill-formed term -/

theorem test_wellFormed_refuses_low :
    (Instr.add 1 2 65536).wellFormed = false ∧ (Instr.nand 1 2 65536).wellFormed = false ∧
      (Instr.cmov 1 2 65536).wellFormed = false := by decide
theorem test_wellFormed_refuses_offset_above :
    (Instr.lw 1 2 32768).wellFormed = false ∧ (Instr.sw 1 2 32768).wellFormed = false ∧
      (Instr.beq 1 2 32768).wellFormed = false := by decide
theorem test_wellFormed_refuses_offset_below :
    (Instr.lw 1 2 (-32769)).wellFormed = false ∧ (Instr.sw 1 2 (-32769)).wellFormed = false ∧
      (Instr.beq 1 2 (-32769)).wellFormed = false := by decide
theorem test_wellFormed_accepts_bounds :
    (Instr.add 1 2 65535).wellFormed = true ∧ (Instr.lw 1 2 (-32768)).wellFormed = true ∧
      (Instr.beq 1 2 32767).wellFormed = true ∧ Instr.halt.wellFormed = true ∧ Instr.noop.wellFormed = true := by decide

/-! ### Decoding: words written out bit by bit from 30_encoding.md R201, R208 (unused, opcode, regA, regB, low) -/

theorem test_decode_add : decode 0b0000000_000_001_010_0000000000000011#32 = .add 1 2 3 := by decide
theorem test_decode_nand : decode 0b0000000_001_001_010_0000000000000011#32 = .nand 1 2 3 := by decide
theorem test_decode_lw : decode 0b0000000_010_011_100_1000000000000000#32 = .lw 3 4 (-32768) := by decide
theorem test_decode_sw : decode 0b0000000_011_000_101_0111111111111111#32 = .sw 0 5 32767 := by decide
theorem test_decode_beq : decode 0b0000000_100_001_010_1111111111111101#32 = .beq 1 2 (-3) := by decide
theorem test_decode_cmov : decode 0b0000000_101_001_010_0000000000000011#32 = .cmov 1 2 3 := by decide
theorem test_decode_halt : decode 0b0000000_110_000_000_0000000000000000#32 = .halt := by decide
theorem test_decode_noop : decode 0b0000000_111_000_000_0000000000000000#32 = .noop := by decide
/-- Corner words of 95_test_vectors.md E-decode: bits 31..25 are ignored, and so is all of `noop` but its opcode. -/
theorem test_decode_corners :
    decode 0xFFFFFFFF#32 = .noop ∧ decode 0xFE000000#32 = .add 0 0 0 ∧ decode 0x03800000#32 = .halt ∧
      decode 0x0000FFFF#32 = .add 0 0 65535 := by decide
/-- The decimal words of 95_test_vectors.md E-table. -/
theorem test_encode_words :
    encode (.add 1 2 3) = 655363 ∧ encode (.nand 1 1 1) = 4784129 ∧ encode (.lw 3 4 (-32768)) = 10256384 ∧
      encode (.sw 1 2 (-1)) = 13303807 ∧ encode (.beq 1 1 2) = 17367042 ∧ encode (.cmov 1 0 0) = 21495808 ∧
      encode .halt = 25165824 ∧ encode .noop = 29360128 := by decide
theorem test_decodeTableWord :
    decodeTableWord 32 0x00CAFFFF = some (.sw 1 2 (-1)) ∧ decodeTableWord 33 0 = none := by decide

/-! ### Instructions: rows of 95_test_vectors.md Part 4, one step each -/

/-- V-ADD2: the sum wraps, no fault. -/
theorem test_add_wraps :
    (nextOf (exec (.add 1 2 3) (((start cfg).setReg 1 2147483647).setReg 2 1))).map (fun t => (t.reg 3, t.pc)) =
      some (0x80000000, 1) := by decide
/-- V-ADD5: a source that is the destination is read first. -/
theorem test_add_doubles :
    (nextOf (exec (.add 1 1 1) ((start cfg).setReg 1 6))).map (fun t => t.reg 1) = some 12 := by decide
/-- V-NAND4. -/
theorem test_nand_bits :
    (nextOf (exec (.nand 1 2 3) (((start cfg).setReg 1 (wrap32 (-1))).setReg 2 0x0F0F0F0F))).map (fun t => t.reg 3) =
      some 0xF0F0F0F0 := by decide
/-- V-NAND5: the guard, and no register written. -/
theorem test_nand_dest_zero :
    (nextOf (exec (.nand 1 2 0) (start cfg))).map (fun t => (t.status, t.reg 0, t.pc)) =
      some (.faulted ⟨.destZero, 0, none, none⟩, 0, 0) := by decide
/-- V-CMOV1: a negative condition is non-zero. -/
theorem test_cmov_moves :
    (nextOf (exec (.cmov 1 2 4) (((start cfg).setReg 1 9).setReg 2 (wrap32 (-4))))).map (fun t => t.reg 4) =
      some 9 := by decide
/-- V-CMOV3: the guard fires although the condition is false. -/
theorem test_cmov_guard_unconditional :
    (nextOf (exec (.cmov 1 0 0) (start cfg))).map (fun t => t.status) =
      some (.faulted ⟨.destZero, 0, none, none⟩) := by decide
/-- V-LW3: `lw` writes register 0. -/
theorem test_lw_writes_r0 :
    (nextOf (exec (.lw 0 0 3) (start cfg))).map (fun t => (t.reg 0, t.pc)) = some (103, 1) := by decide
/-- V-LW7: the guard comes before the bounds check. -/
theorem test_lw_guard_first :
    (nextOf (exec (.lw 1 2 0) ((start cfg).setReg 1 (wrap32 (-5))))).map (fun t => t.status) =
      some (.faulted ⟨.destZero, 0, none, none⟩) := by decide
/-- V-SW1: the view changes, memory does not. -/
theorem test_sw_writes_cache_only :
    (nextOf (exec (.sw 1 2 (-1)) ((start cfg).setReg 1 6))).map (fun t => (t.view 5, t.mem.read 5, t.view 4)) =
      some (3, 105, 104) := by decide
/-- V-SW3: no data event, no cache change. -/
theorem test_sw_bounds :
    (nextOf (exec (.sw 0 1 (-1)) (start cfg))).map (fun t => (t.status, t.trace, t.accessCounter)) =
      some (.faulted ⟨.dataBounds, 0, none, some (-1)⟩, [], 0) := by decide
/-- V-BEQ1: taken, backwards. -/
theorem test_beq_taken :
    (nextOf (exec (.beq 1 1 (-3)) ((start cfg).setPc 10))).map (fun t => t.pc) = some 8 := by decide
/-- V-BEQ2: not taken. -/
theorem test_beq_not_taken :
    (nextOf (exec (.beq 1 2 (-3)) ((start cfg).setPc 10))).map (fun t => t.pc) = some 11 := by decide
/-- V-HALT1, P1: the step of a `halt` at address 1 ends with pc 2, counted. -/
theorem test_halt_step :
    (nextOf (step ((prog [1, 25165824]).setPc 1))).map (fun t => (t.status, t.pc, t.icount)) =
      some (.halted, 2, 1) := by decide
/-- V-NOOP2: the word -1 is a `noop`. -/
theorem test_noop_step :
    (nextOf (step (prog [wrap32 (-1)]))).map (fun t => (t.status, t.pc, t.icount, t.accessCounter)) =
      some (.running, 1, 1, 1) := by decide

/-! ### Steps, cache and host -/

/-- F-12: the empty program faults at address 0 with the word 0 in the record. -/
theorem test_step_empty_memory :
    (nextOf (step State.reset)).map (fun t => (t.status, t.icount, t.trace)) =
      some (.faulted ⟨.destZero, 0, some 0, none⟩, 0, [⟨.memoryToCache, 0, 0⟩, ⟨.cacheToProcessor, 0, 0⟩]) := by decide
theorem test_withFetchWord :
    (nextOf (step (State.reset.withFetchWord 32 25165824))).map (fun t => t.status) = some .halted := by decide
/-- The word is fetched too where the cache holds the address, dirty or clean. -/
theorem test_withFetchWord_cached :
    (nextOf (step ((dirtyFull.setPc 3).withFetchWord 32 29360128))).map (fun t => t.pc) = some 4 ∧
      (nextOf (step ((cleanFull.setPc 3).withFetchWord 32 29360128))).map (fun t => t.pc) = some 4 := by decide
theorem test_no_step_when_halted : step { start cfg with status := .halted } = .fault .halted := rfl
/-- V-WB1 row 1: a write miss fills before it writes. -/
theorem test_write_miss_events : warm.trace = [⟨.memoryToCache, 4, 5⟩, ⟨.processorToCache, 5, 5⟩] := by decide
/-- V-WB1 row 4: the dirty victim is written back before the fill. -/
theorem test_dirty_eviction :
    (stateOf (dirtyFull.cacheRead 8 .dataBounds)).trace.drop 2 =
        [⟨.cacheToMemory, 3, 3⟩, ⟨.memoryToCache, 8, 8⟩, ⟨.cacheToProcessor, 8, 8⟩] ∧
      (stateOf (dirtyFull.cacheRead 8 .dataBounds)).mem.read 3 = 7 := by decide
/-- Part 3: row `(2, 8)`, address 37. -/
theorem test_decompose : decompose (small 2 8 1 64) 37 = ⟨2, 2, 1⟩ := by decide
/-- V-LRU1 access 5: timestamps (3, 1, 2) give slot 1. -/
theorem test_victim :
    victim [⟨true, false, 0, 3, 0, [0]⟩, ⟨true, false, 1, 1, 1, [0]⟩, ⟨true, false, 2, 2, 2, [0]⟩] = 1 := by decide
/-- 20_memory.md R151, R152. -/
theorem test_trace_line :
    (⟨.cacheToNowhere, 0, 13⟩ : Event).line cfg =
      "@@@ transferring word [0-13] from the cache to the nowhere" := by decide
/-- H-7, H-8, H-12. -/
theorem test_parseLine :
    parseLine "12a".toList = none ∧ parseLine "2147483648".toList = none ∧
      parseLine "-2147483648".toList = some 0x80000000 ∧ parseLine "  +7 ".toList = some 7 := by decide
/-- 70_reset_and_hazards.md R506: one carriage return is removed, on either side of spaces, and a second one is not. -/
theorem test_carriage_return :
    parseLine "5\r".toList = some 5 ∧ parseLine " 5 \r\t".toList = some 5 ∧ parseLine "\r5".toList = some 5 ∧
      parseLine "5\r\r".toList = none ∧ parseLine "\r5\r".toList = none ∧ parseLine "\r".toList = none := by decide
/-- H-9, H-10. -/
theorem test_programLines :
    parseProgram 16 "1\n\n2".toList = .error .formatLine ∧ parseProgram 16 "1\n2\n".toList = .ok [1, 2] := by decide
/-- H-1, H-2, H-3, H-4. -/
theorem test_checkArguments :
    checkArguments cfg [['p'], ['1'], ['1']] = .error .configArgs ∧
      checkArguments cfg [['p'], ['3'], ['1'], ['1']] = .error .configGeometry ∧
      checkArguments cfg [['p'], ['1'], ['0'], ['1']] = .error .configGeometry ∧
      checkArguments cfg [['p'], ['4'], ['2'], ['3']] =
        .ok (['p'], { cfg with blockSize := 4, numSets := 2, blocksPerSet := 3 }) := by decide

/-! ### Witnesses: the hypotheses of each statement can be met -/

theorem witness_DecodeInvertsEncode :
    (Instr.add 7 7 65535).wellFormed = true ∧ (Instr.sw 0 0 (-32768)).wellFormed = true ∧
      (Instr.lw 0 0 32767).wellFormed = true ∧ Instr.halt.wellFormed = true := by decide
theorem witness_DecodeIgnoresUnusedBits :
    (0xFFFFFFFF#32).toNat % 2 ^ 25 = (0x01FFFFFF#32).toNat % 2 ^ 25 ∧
      (0x01800000#32).toNat / 2 ^ 22 % 2 ^ 3 = (0x03BFFFFF#32).toNat / 2 ^ 22 % 2 ^ 3 ∧
      6 ≤ (0x01800000#32).toNat / 2 ^ 22 % 2 ^ 3 := by decide
theorem witness_EncodeInvertsDecode :
    ((0x017FFFFF#32).toNat < 2 ^ 25 ∧ (0x017FFFFF#32).toNat / 2 ^ 22 < 6) ∧
      (0#32).toNat < 2 ^ 25 ∧ (0#32).toNat / 2 ^ 22 < 6 := by decide
theorem witness_DecomposeRoundTrips : cfg.Legal ∧ Config.hardware.Legal := ⟨legal_cfg, legal_hardware⟩
theorem witness_BlockExtentInsideMemory : cfg.Legal ∧ 15 < cfg.memWords := ⟨legal_cfg, by decide⟩
theorem witness_CacheReadAnswersView : warm.Coherent ∧ 0 < warm.cfg.memWords ∧ 15 < warm.cfg.memWords :=
  ⟨coherent_warm, by decide, by decide⟩
theorem witness_CacheWriteSetsView : warm.Coherent ∧ 0 < warm.cfg.memWords ∧ 15 < warm.cfg.memWords :=
  ⟨coherent_warm, by decide, by decide⟩
theorem witness_ReadHitRefreshesAndAnswers :
    4 < warm.cfg.memWords ∧ warm.lookup (decompose warm.cfg 4).setIndex (decompose warm.cfg 4).tag = some 0 := by decide
theorem witness_WriteHitOverwritesAndDirties :
    5 < warm.cfg.memWords ∧ warm.lookup (decompose warm.cfg 5).setIndex (decompose warm.cfg 5).tag = some 0 := by decide
theorem witness_WriteMissAllocatesBlock :
    dirtyFull.Coherent ∧ 8 < dirtyFull.cfg.memWords ∧
      dirtyFull.lookup (decompose dirtyFull.cfg 8).setIndex (decompose dirtyFull.cfg 8).tag = none :=
  ⟨coherent_dirtyFull, by decide, by decide⟩
theorem witness_ReadMissInstallsBlock :
    (start cfg).Coherent ∧ 15 < (start cfg).cfg.memWords ∧
      (start cfg).lookup (decompose cfg 15).setIndex (decompose cfg 15).tag = none :=
  ⟨coherent_start, by decide, by decide⟩
/-- A read of the dirty block's set that writes it back, and one that changes no memory. -/
theorem witness_MemoryChangesOnlyByWriteBack :
    (∃ w t, dirtyFull.access 8 .read .dataBounds = .done w t) ∧
      ∃ w t, dirtyFull.access 3 .read .dataBounds = .done w t := ⟨⟨_, _, rfl⟩, ⟨_, _, rfl⟩⟩
theorem witness_VictimIsLeastRecentlyUsed :
    dirtyFull.cacheSet 0 ≠ [] ∧ ∀ b ∈ dirtyFull.cacheSet 0, b.valid = true := by decide
/-- The first slot free, and the second free behind a valid first. -/
theorem witness_InvalidSlotReusedFirst :
    (0 < ((start cfg).cacheSet 0).length ∧ ((start cfg).block 0 0).valid = false) ∧
      1 < (warm.cacheSet 0).length ∧ (warm.block 0 1).valid = false ∧ ∀ k < 1, (warm.block 0 k).valid = true := by decide
/-- A dirty victim and a clean one. -/
theorem witness_EvictionWritesBackDirtyOnly :
    (dirtyFull.Coherent ∧ 0 < dirtyFull.cfg.numSets ∧ 0 < dirtyFull.cfg.blocksPerSet ∧
        (dirtyFull.block 0 0).dirty = true) ∧
      cleanFull.Coherent ∧ 0 < cleanFull.cfg.numSets ∧ 0 < cleanFull.cfg.blocksPerSet ∧
        (cleanFull.block 0 0).dirty = false :=
  ⟨⟨coherent_dirtyFull, by decide, by decide, by decide⟩, coherent_cleanFull, by decide, by decide, by decide⟩
/-- A hit, a miss with an invalid slot, a clean victim, a dirty victim. -/
theorem witness_AccessEventsInOrder :
    (∃ w t, warm.access (4 : Nat) .read .dataBounds = .done w t) ∧
      (∃ w t, warm.access (8 : Nat) (.write 1) .dataBounds = .done w t) ∧
      (∃ w t, cleanFull.access (8 : Nat) .read .dataBounds = .done w t) ∧
      ∃ w t, dirtyFull.access (8 : Nat) (.write 1) .dataBounds = .done w t :=
  ⟨⟨_, _, rfl⟩, ⟨_, _, rfl⟩, ⟨_, _, rfl⟩, ⟨_, _, rfl⟩⟩
theorem witness_SecondReadHits : dirtyFull.Coherent ∧ 15 < dirtyFull.cfg.memWords := ⟨coherent_dirtyFull, by decide⟩
/-- The registers 1 and 7, and a narrow field that reads 9 as 1. -/
theorem witness_AddWritesSum :
    (destField (start cfg).cfg 1 = (1 : RegIdx).val ∧ (1 : RegIdx) ≠ 0) ∧
      (destField (start cfg).cfg 7 = (7 : RegIdx).val ∧ (7 : RegIdx) ≠ 0) ∧
      destField (start narrow).cfg 9 = (1 : RegIdx).val := by decide
theorem witness_NandWritesNotAnd : destField (start cfg).cfg 7 = (7 : RegIdx).val ∧ (7 : RegIdx) ≠ 0 := by decide
/-- Both clauses: a zero and a non-zero condition. -/
theorem witness_CmovMovesOnNonZero :
    destField (start cfg).cfg 7 = (7 : RegIdx).val ∧ (7 : RegIdx) ≠ 0 ∧ (start cfg).reg 0 = 0 ∧
      (start cfg).reg 1 ≠ 0 := by decide
/-- The first address of the memory and the last. -/
theorem witness_LoadWritesView :
    warm.Coherent ∧ (loadGuardField warm.cfg 1 ≠ 0 ∧ sint32 (warm.reg 3) + 1 = ((0 : Nat) : Int) ∧ 0 < warm.cfg.memWords) ∧
      loadGuardField warm.cfg 15 ≠ 0 ∧ sint32 (warm.reg 0) + 15 = ((15 : Nat) : Int) ∧ 15 < warm.cfg.memWords :=
  ⟨coherent_warm, by decide, by decide, by decide, by decide⟩
theorem witness_StoreSetsView :
    dirtyFull.Coherent ∧ (sint32 (dirtyFull.reg 0) + 0 = ((0 : Nat) : Int) ∧ 0 < dirtyFull.cfg.memWords) ∧
      sint32 (dirtyFull.reg 0) + 15 = ((15 : Nat) : Int) ∧ 15 < dirtyFull.cfg.memWords :=
  ⟨coherent_dirtyFull, by decide, by decide, by decide⟩
theorem witness_HaltEndsRun :
    (prog [25165824]).status = .running ∧ (∃ w u, (prog [25165824]).fetch = .done w u ∧ decode w = .halt) :=
  ⟨rfl, _, _, rfl, by decide⟩
theorem witness_NoopOnlyAdvances :
    (prog [29360128]).status = .running ∧ (∃ w u, (prog [29360128]).fetch = .done w u ∧ decode w = .noop) :=
  ⟨rfl, _, _, rfl, by decide⟩
/-- The field 0, a multiple of 8 in a narrow field, and the same for the load guard. -/
theorem witness_DestZeroTraps :
    destField (start cfg).cfg 0 = 0 ∧ destField (start narrow).cfg 8 = 0 ∧ loadGuardField (start cfg).cfg 0 = 0 ∧
      loadGuardField (start narrow).cfg (-8) = 0 := by decide
theorem witness_DestRangeTraps :
    8 ≤ destField (start cfg).cfg 8 ∧ 8 ≤ destField (start cfg).cfg 65535 ∧
      (start narrow).cfg.destFieldBits = .bits3 := by decide
theorem witness_LoadGuardReadsLowField :
    offsetInRange (-32768) = true ∧ offsetInRange 32767 = true ∧ cfg.destFieldBits = .bits16 ∧
      narrow.destFieldBits = .bits3 := by decide
/-- A `lw` at -1 and a `sw` at the address `MEM_WORDS`. -/
theorem witness_DataBoundsTraps :
    ((prog [8519679]).status = .running ∧ (∃ w u, (prog [8519679]).fetch = .done w u ∧ decode w = .lw 0 1 (-1)) ∧
        (-1 : Int) = sint32 ((prog [8519679]).reg 0) + -1 ∧ loadGuardField (prog [8519679]).cfg (-1) ≠ 0) ∧
      (prog [encode (.sw 0 1 16)]).status = .running ∧
        (∃ w u, (prog [encode (.sw 0 1 16)]).fetch = .done w u ∧ decode w = .sw 0 1 16) ∧
        ((prog [encode (.sw 0 1 16)]).cfg.memWords : Int) ≤ sint32 ((prog [encode (.sw 0 1 16)]).reg 0) + 16 :=
  ⟨⟨rfl, ⟨_, _, rfl, by decide⟩, by decide, by decide⟩, rfl, ⟨_, _, rfl, by decide⟩, by decide⟩
theorem witness_FetchBoundsTraps :
    (((start cfg).setPc (-1)).status = .running ∧ ((start cfg).setPc (-1)).pc < 0) ∧
      ((start cfg).setPc 16).status = .running ∧
        (((start cfg).setPc 16).cfg.memWords : Int) ≤ ((start cfg).setPc 16).pc := by decide
theorem witness_RegisterInstructionsFrame :
    (∃ t, exec (.add 1 2 3) (start cfg) = .next t) ∧ (∃ t, exec (.nand 1 2 0) (start cfg) = .next t) ∧
      ∃ t, exec (.cmov 1 0 8) (start cfg) = .next t :=
  ⟨exists_next (by decide), exists_next (by decide), exists_next (by decide)⟩
theorem witness_LoadFrame : dirtyFull.Coherent ∧ ∃ t, exec (.lw 0 1 8) dirtyFull = .next t :=
  ⟨coherent_dirtyFull, exists_next (by decide)⟩
theorem witness_StoreFrame : dirtyFull.Coherent ∧ ∃ t, exec (.sw 0 1 8) dirtyFull = .next t :=
  ⟨coherent_dirtyFull, exists_next (by decide)⟩
theorem witness_ControlInstructionsFrame :
    (Instr.beq 1 2 3).opcode = .beq ∧ Instr.halt.opcode = .halt ∧ Instr.noop.opcode = .noop ∧
      (∃ t, exec (.beq 1 2 3) (start cfg) = .next t) ∧ (∃ t, exec .halt (start cfg) = .next t) ∧
      ∃ t, exec .noop (start cfg) = .next t :=
  ⟨rfl, rfl, rfl, exists_next (by decide), exists_next (by decide), exists_next (by decide)⟩
theorem witness_StepRunsDecodedInstruction :
    (warm.Coherent ∧ warm.status = .running ∧ 0 ≤ warm.pc ∧ warm.pc < (warm.cfg.memWords : Int)) :=
  ⟨coherent_warm, by decide, by decide, by decide⟩
/-- A step that faults (the word 100 is `add 0 0 100`) and one that completes. -/
theorem witness_FatalStepIsPrecise :
    (∃ t, step (start cfg) = .next t) ∧ ((nextOf (step (start cfg))).map State.isFaulted = some true) ∧
      (∃ t, step (prog [29360128]) = .next t) ∧ (nextOf (step (prog [29360128]))).map State.isFaulted = some false :=
  ⟨exists_next (by decide), by decide, exists_next (by decide), by decide⟩
theorem witness_StepCountsAccesses : dirtyFull.Coherent ∧ ∃ t, step dirtyFull = .next t :=
  ⟨coherent_dirtyFull, exists_next (by decide)⟩
theorem witness_StepAppendsFewEvents :
    (∃ t, step (start cfg) = .next t) ∧ ∃ t, step ((start cfg).setPc (-1)) = .next t :=
  ⟨exists_next (by decide), exists_next (by decide)⟩
/-- A step that makes a data access (`sw 0 1 3`), one that makes none, and one that faults past its fetch. -/
theorem witness_StepEventsInOrder :
    ((prog [12648451]).status = .running ∧ (∃ w u, (prog [12648451]).fetch = .done w u) ∧
        ∃ t, step (prog [12648451]) = .next t) ∧
      (nextOf (step (prog [12648451]))).map (fun t => t.trace) =
        some [⟨.memoryToCache, 0, 0⟩, ⟨.cacheToProcessor, 0, 0⟩, ⟨.cacheToNowhere, 0, 0⟩, ⟨.memoryToCache, 3, 3⟩,
          ⟨.processorToCache, 3, 3⟩] ∧
      (∃ t, step (prog [29360128]) = .next t) ∧ ∃ t, step (start cfg) = .next t :=
  ⟨⟨rfl, ⟨_, _, rfl⟩, exists_next (by decide)⟩, by decide, exists_next (by decide), exists_next (by decide)⟩
/-- The state in which the next fetch from a coherent state is the given word. -/
def placed (w : Word) : State := (start cfg).placeWord w
set_option synthInstance.maxSize 2000 in
theorem coherent_placed_halt : (placed 25165824).Coherent := by
  refine ⟨⟨legal_cfg, ?_, ?_, ?_, ?_, ?_, ?_⟩, ?_, ?_⟩ <;> decide
set_option synthInstance.maxSize 2000 in
theorem coherent_placed_beq : (placed 17367042).Coherent := by
  refine ⟨⟨legal_cfg, ?_, ?_, ?_, ?_, ?_, ?_⟩, ?_, ?_⟩ <;> decide
set_option synthInstance.maxSize 2000 in
theorem coherent_placed_lw : (placed 8388611).Coherent := by
  refine ⟨⟨legal_cfg, ?_, ?_, ?_, ?_, ?_, ?_⟩, ?_, ?_⟩ <;> decide
/-- A taken branch (`beq 1 1 2`), and a step that is no branch (`halt`). -/
theorem witness_OnlyBranchesJump :
    ((placed 17367042).Coherent ∧ (∃ t, step (placed 17367042) = .next t) ∧
        (nextOf (step (placed 17367042))).map (fun t => (t.isFaulted, t.pc)) = some (false, 3)) ∧
      (placed 25165824).Coherent ∧ (∃ t, step (placed 25165824) = .next t) ∧
        (nextOf (step (placed 25165824))).map (fun t => (t.isFaulted, t.pc)) = some (false, 1) :=
  ⟨⟨coherent_placed_beq, exists_next (by decide), by decide⟩, coherent_placed_halt, exists_next (by decide), by decide⟩
theorem witness_OnlyHaltHalts : (placed 25165824).Coherent ∧ ∃ t, step (placed 25165824) = .next t :=
  ⟨coherent_placed_halt, exists_next (by decide)⟩
/-- `lw 0 0 3` loads 103 into register 0. -/
theorem witness_OnlyLoadWritesRegisterZero :
    (placed 8388611).Coherent ∧ (∃ t, step (placed 8388611) = .next t) ∧ (placed 8388611).reg 0 = 0 ∧
      (nextOf (step (placed 8388611))).map (fun t => t.reg 0) = some 103 :=
  ⟨coherent_placed_lw, exists_next (by decide), by decide, by decide⟩
theorem witness_ConfigurationIsConstant : ∃ t, step (start cfg) = .next t := exists_next (by decide)
theorem witness_FetchSeesStore :
    (start cfg).Coherent ∧ (0 ≤ sint32 ((start cfg).reg 0) + 15 ∧
      sint32 ((start cfg).reg 0) + 15 < ((start cfg).cfg.memWords : Int)) ∧
      ∃ t, exec (.sw 0 1 15) (start cfg) = .next t :=
  ⟨coherent_start, by decide, exists_next (by decide)⟩
/-- Two cache geometries under the same program and memory. -/
theorem witness_CacheIsInvisible :
    (start cfg).Coherent ∧ (start tiny).Coherent ∧ SameArchitecture (start cfg) (start tiny) ∧
      ∃ t, step (start cfg) = .next t :=
  ⟨coherent_start, coherent_tiny, ⟨rfl, rfl, rfl, rfl, rfl, rfl, by decide⟩, exists_next (by decide)⟩
theorem witness_StepKeepsInvariant : (start cfg).Inv ∧ ∃ t, step (start cfg) = .next t :=
  ⟨⟨coherent_start, rfl, rfl, by decide⟩, exists_next (by decide)⟩
theorem witness_ExecKeepsCoherence : dirtyFull.Coherent ∧ ∃ t, exec (.sw 0 1 8) dirtyFull = .next t :=
  ⟨coherent_dirtyFull, exists_next (by decide)⟩
theorem witness_PlacedWordIsFetchedNext : dirtyFull.Coherent ∧ warm.Coherent := ⟨coherent_dirtyFull, coherent_warm⟩
theorem witness_BootLoadsProgram :
    cfg.memWords ≤ 2 ^ 31 - 32768 ∧
      ∃ s, boot cfg [['p'], ['2'], ['2'], ['1']] (fun _ => some "1\n25165824\n".toList) = .ok s := ⟨by decide, _, rfl⟩
/-- A geometry that fits and one that does not; a file with a bad line, and one too long. -/
theorem witness_BootReportsFirstFault :
    (parseArgument ['2'] = some 2 ∧ GeometryFits 2 2 cfg.memWords ∧ ¬GeometryFits 3 1 cfg.memWords) ∧
      (∃ l ∈ programLines "1\n\n2".toList, parseLine l = none) ∧
      (∀ l ∈ programLines "1\n2\n".toList, parseLine l ≠ none) ∧
      (tiny.memWords < (programLines (List.replicate 17 ['0', '\n']).flatten).length) := by decide
/-- The bounds of the 32-bit range, and one past each. -/
theorem witness_AcceptedLineIsItsWord :
    parseLine "-2147483648".toList = some 0x80000000 ∧ parseLine "2147483647".toList = some 0x7FFFFFFF ∧
      parseDecimal (stripBlanks "2147483648".toList) = some 2147483648 ∧
      parseDecimal (stripBlanks "-2147483649".toList) = some (-2147483649) := by decide
theorem witness_LineEndsAreStripped :
    (∀ c ∈ [' ', '\t'] ++ [' '] ++ ['\t'], c = ' ' ∨ c = '\t') ∧
      ∀ c ∈ ['-', '1', '2'], c ≠ ' ' ∧ c ≠ '\t' ∧ c ≠ '\r' := by simp
theorem witness_ReportShowsFinalState :
    (∃ r, ({ start cfg with status := .halted } : State).report = some r) ∧
      ∃ d, ((start cfg).faultedWith .destZero none).diagnostic = some d := ⟨⟨_, rfl⟩, ⟨_, rfl⟩⟩

end Sys2Proof.Tests
end

/-! SUPPORT. Proofs of the statements on hits, the victim, its eviction and the memory image (20_memory.md R121, R126,
R128, R135, R136), over the laws of Laws/Cache.lean and Laws/Access.lean. -/

namespace Sys2Proof.Machine

/-! ### Hits -/

/-- An access to an address inside memory completes (20_memory.md R119). -/
theorem State.access_natCast {s : State} {a : Nat} (ha : a < s.cfg.memWords) (op : AccessOp) (cause : Cause) :
    s.access a op cause = .done (s.accessInRange a op).1 (s.accessInRange a op).2 := by
  rcases s.access_cases a op cause with ⟨-, h⟩ | ⟨hout, -⟩
  · exact h
  · exact absurd ⟨Int.natCast_nonneg a, Int.ofNat_lt.2 ha⟩ hout

/-- On a hit an access is its completion on the slot hit: no slot choice, no fill (20_memory.md R119). -/
theorem State.accessInRange_of_hit {s : State} {a j : Nat}
    (hl : s.lookup (decompose s.cfg a).setIndex (decompose s.cfg a).tag = some j) (op : AccessOp) :
    s.accessInRange a op = s.complete a j op := by
  simp only [State.accessInRange, State.locate, hl]

/-- Settles O11: a read hit is the completion of the read on the slot hit. -/
theorem readHitRefreshesAndAnswers : Obligations.ReadHitRefreshesAndAnswers := by
  intro s a j cause ha hl
  rw [State.cacheRead, State.access_natCast ha, State.accessInRange_of_hit hl]
  rfl

/-- Settles O12: a write hit is the completion of the write on the slot hit, whatever word and dirty bit it held. -/
theorem writeHitOverwritesAndDirties : Obligations.WriteHitOverwritesAndDirties := by
  intro s a j v cause ha hl
  refine ⟨v, ?_⟩
  rw [State.cacheWrite, State.access_natCast ha, State.accessInRange_of_hit hl]
  rfl

/-! ### The victim of a full set -/

theorem State.block_eq_getElem {s : State} {i j : Nat} (hj : j < (s.cacheSet i).length) :
    s.block i j = (s.cacheSet i)[j] := by
  simp [State.block, List.getD, hj]

theorem firstInvalid_eq_none_iff {set : List Block} :
    firstInvalid set = none ↔ ∀ b ∈ set, b.valid = true := by
  simp [firstInvalid, List.findIdx?_eq_none_iff]

/-- No block of the set is older than the victim. -/
theorem victim_ts_le {set : List Block} (h : victim set < set.length) {b : Block} (hb : b ∈ set) :
    set[victim set].ts ≤ b.ts := by
  have hv := List.findIdx_getElem (w := h)
  exact of_decide_eq_true (List.all_eq_true.1 hv b hb)

/-- Every block in a slot below the victim's is younger than some block of the set. -/
theorem exists_older_of_lt_victim {set : List Block} {k : Nat} (hk : k < victim set) (hlen : k < set.length) :
    ∃ b ∈ set, b.ts < set[k].ts := by
  simpa using List.not_of_lt_findIdx hk

/-- The victim minimises (timestamp, slot number) (20_memory.md R135). -/
theorem victim_least {set : List Block} (h : victim set < set.length) {k : Nat} (hk : k < set.length) :
    set[victim set].ts < set[k].ts ∨ (set[victim set].ts = set[k].ts ∧ victim set ≤ k) := by
  rcases lt_or_ge k (victim set) with hlt | hge
  · obtain ⟨b, hb, hbk⟩ := exists_older_of_lt_victim hlt hk
    exact .inl ((victim_ts_le h hb).trans_lt hbk)
  · have := victim_ts_le h (List.getElem_mem hk)
    omega

/-- The slot choice in a full set is its victim, evicted (20_memory.md R130). -/
theorem State.chooseSlot_of_full {s : State} {i : Nat} (h : ∀ b ∈ s.cacheSet i, b.valid = true) :
    s.chooseSlot i = (victim (s.cacheSet i), s.evict i (victim (s.cacheSet i))) := by
  simp only [State.chooseSlot, firstInvalid_eq_none_iff.2 h]

/-- Settles O16: the slot chosen in a full set is the victim, which minimises (timestamp, slot number). -/
theorem victimIsLeastRecentlyUsed : Obligations.VictimIsLeastRecentlyUsed := by
  intro s i hne hfull
  have hv := victim_lt_length hne
  rw [State.chooseSlot_of_full hfull]
  refine ⟨hv, fun k hk => ?_⟩
  rw [State.block_eq_getElem hv, State.block_eq_getElem hk]
  exact victim_least hv hk

/-! ### Memory changes by eviction alone -/

/-- A slot choice keeps memory, or writes back the dirty victim of a full set (20_memory.md R130, R136). -/
theorem State.chooseSlot_mem (s : State) (i : Nat) :
    (s.chooseSlot i).2.mem = s.mem ∨
      (∀ b ∈ s.cacheSet i, b.valid = true) ∧ (s.block i (victim (s.cacheSet i))).dirty = true ∧
        (s.chooseSlot i).2.mem = s.mem.writeBlock (s.block i (victim (s.cacheSet i))).memHead
          (s.block i (victim (s.cacheSet i))).lines := by
  rcases s.chooseSlot_cases i with ⟨j, -, h⟩ | ⟨hfull, h⟩ <;> rw [h]
  · exact .inl rfl
  · rw [State.evict_mem]
    split
    · exact .inr ⟨firstInvalid_eq_none_iff.1 hfull, ‹_›, rfl⟩
    · exact .inl rfl

/-- Memory after an access: as it was on a hit, as the slot choice left it on a miss (20_memory.md R128). -/
theorem State.accessInRange_mem (s : State) (a : Nat) (op : AccessOp) :
    (s.accessInRange a op).2.mem = s.mem ∨
      s.lookup (decompose s.cfg a).setIndex (decompose s.cfg a).tag = none ∧
        (s.accessInRange a op).2.mem = (s.chooseSlot (decompose s.cfg a).setIndex).2.mem := by
  have hcomplete : (s.accessInRange a op).2.mem = (s.locate a).2.mem := State.complete_mem _ _ _ _
  rw [hcomplete]
  rcases s.locate_cases a with ⟨j, -, h⟩ | ⟨hmiss, h⟩ <;> rw [h]
  · exact .inl rfl
  · exact .inr ⟨hmiss, rfl⟩

/-- Settles O15: only the slot choice of a miss can change memory, and only by the write-back of its victim. -/
theorem memoryChangesOnlyByWriteBack : Obligations.MemoryChangesOnlyByWriteBack := by
  intro s t a op cause w hdone
  rcases s.access_cases a op cause with ⟨-, h⟩ | ⟨-, h⟩ <;> rw [h] at hdone
  · obtain ⟨-, rfl⟩ := AccessResult.done.inj hdone
    rcases s.accessInRange_mem a.toNat op with hsame | ⟨hmiss, hmem⟩
    · exact .inl hsame
    · rw [hmem]
      exact (s.chooseSlot_mem _).imp_right fun ⟨hfull, hdirty, hwritten⟩ =>
        ⟨_, _, hfull, hmiss, rfl, rfl, hdirty, hwritten⟩
  · cases hdone

/-- What every address of memory holds after an eviction (20_memory.md R136). -/
theorem State.Consistent.read_evict_extent {s : State} (h : s.Consistent) {i j : Nat} (hi : i < s.cfg.numSets)
    (hj : j < s.cfg.blocksPerSet) (b : Nat) :
    (s.evict i j).mem.read b =
      if (s.block i j).dirty = true ∧ (s.block i j).memHead ≤ b ∧ b < (s.block i j).memHead + s.cfg.blockSize then
        (s.block i j).lines.getD (b - (s.block i j).memHead) 0
      else s.mem.read b := by
  rw [State.evict_mem]
  cases (s.block i j).dirty with
  | true => simp [Memory.read_writeBlock h.memWf, h.shape.length_lines hi hj]
  | false => simp

/-- Settles O18: the memory, the event, the blocks and the counter after an eviction, each by the law of `evict`. -/
theorem evictionWritesBackDirtyOnly : Obligations.EvictionWritesBackDirtyOnly := by
  intro s i j hs hi hj
  have h := hs.consistent
  refine ⟨h.read_evict_extent hi hj, fun hclean => ?_, s.evict_trace i j, s.block_evict h.shape hi hj,
    s.evict_accessCounter i j⟩
  simp [State.evict_mem, hclean]

end Sys2Proof.Machine

/-! SUPPORT. Proof of the statement on `noop` (43_control.md R420), over the laws of Laws/Step.lean. -/

namespace Sys2Proof.Machine

@[simp] theorem exec_noop (s : State) : exec .noop s = .next s.advancePc := rfl

/-- Settles O29: a `noop` advances the pc of the state the fetch left; neither of the two faults, so the step is counted. -/
theorem noopOnlyAdvances : Obligations.NoopOnlyAdvances := by
  refine ⟨exec_noop, fun s u w hs hf hd => ?_⟩
  obtain ⟨-, -, hpc, hstatus, hicount, -⟩ := State.fetch_engine hf
  have hexec : exec (decode w) u = .next u.advancePc := by rw [hd, exec_noop]
  have hrunning : u.advancePc.isFaulted = false := by simp [State.isFaulted, hstatus, hs]
  rw [step_of_fetch hs hf hexec, State.retire_counted hrunning, ← hpc, ← hicount]
  rfl

end Sys2Proof.Machine

/-! SUPPORT. Proofs of the statements on the encoding (30_encoding.md), over the laws of Laws/Decode.lean. -/

namespace Sys2Proof

/-! ### Decode of an encoded instruction -/

theorem lowField_encodeFields_natCast (op : Opcode) (a b : RegIdx) {low : Nat} (h : low < 65536) :
    lowField (encodeFields op a b low) = low := by
  rw [lowField_encodeFields]
  omega

theorem lowInRange_iff {low : Nat} : lowInRange low = true ↔ low < 65536 := by
  simp [lowInRange]

theorem offsetInRange_iff {offset : Int} : offsetInRange offset = true ↔ -32768 ≤ offset ∧ offset ≤ 32767 := by
  simp [offsetInRange]

theorem offsetField_encodeFields (op : Opcode) (a b : RegIdx) {offset : Int} (h : offsetInRange offset = true) :
    offsetField (encodeFields op a b offset) = offset := by
  obtain ⟨lo, hi⟩ := offsetInRange_iff.1 h
  rw [offsetField, lowField_encodeFields, signExtend16_lowBits lo hi]

/-- Settles O1: every field of an encoded word is the operand it was made of. -/
theorem decodeInvertsEncode : Obligations.DecodeInvertsEncode := by
  intro i h
  cases i with
  | add a b low | nand a b low | cmov a b low =>
    rw [Instr.wellFormed, lowInRange_iff] at h
    rw [encode, decode, opcodeField_encodeFields]
    simp only [regAField_encodeFields, regBField_encodeFields, lowField_encodeFields_natCast _ _ _ h]
  | lw a b offset | sw a b offset | beq a b offset =>
    rw [Instr.wellFormed] at h
    rw [encode, decode, opcodeField_encodeFields]
    simp only [regAField_encodeFields, regBField_encodeFields, offsetField_encodeFields _ _ _ h]
  | halt | noop => rw [encode, decode, opcodeField_encodeFields]

/-! ### Decode of any word -/

theorem lowInRange_lowField (w : Word) : lowInRange (lowField w) = true :=
  lowInRange_iff.2 (lowField_lt w)

theorem offsetInRange_offsetField (w : Word) : offsetInRange (offsetField w) = true :=
  offsetInRange_iff.2 (signExtend16_range (lowField_lt w))

/-- Settles O2: whatever the opcode, the low field is in the range of its format. -/
theorem decodedInstructionIsWellFormed : Obligations.DecodedInstructionIsWellFormed := by
  intro w
  unfold decode
  cases opcodeField w with
  | add | nand | cmov => exact lowInRange_lowField w
  | lw | sw | beq => exact offsetInRange_offsetField w
  | halt | noop => rfl

/-- Decode reads four fields and nothing else (30_encoding.md R201). -/
theorem decode_congr {w v : Word} (hop : opcodeField w = opcodeField v) (ha : regAField w = regAField v)
    (hb : regBField w = regBField v) (hl : lowField w = lowField v) : decode w = decode v := by
  simp only [decode, offsetField, hop, ha, hb, hl]

theorem opcodeField_congr {w v : Word} (h : bitField w 22 3 = bitField v 22 3) : opcodeField w = opcodeField v := by
  simp only [opcodeField, regField, h]

/-- An opcode of 6 or more is that of an instruction without operands (30_encoding.md R208). -/
theorem opcodeField_of_six_le {w : Word} (h : 6 ≤ bitField w 22 3) :
    opcodeField w = .halt ∨ opcodeField w = .noop := by
  have hlt : bitField w 22 3 < 8 := Nat.mod_lt _ (by decide)
  obtain h6 | h7 : bitField w 22 3 = 6 ∨ bitField w 22 3 = 7 := by omega
  · exact .inl (by simp only [opcodeField, regField, h6]; rfl)
  · exact .inr (by simp only [opcodeField, regField, h7]; rfl)

/-- Settles O3: bits 31 to 25 stand in no field, and `halt` and `noop` have no operand. -/
theorem decodeIgnoresUnusedBits : Obligations.DecodeIgnoresUnusedBits := by
  refine ⟨fun w v h => ?_, fun w v h h6 => ?_⟩
  · refine decode_congr (opcodeField_congr ?_) (Fin.ext ?_) (Fin.ext ?_) ?_ <;>
      simp only [regAField, regBField, lowField, regField, bitField] <;> omega
  · have hop : opcodeField w = opcodeField v := opcodeField_congr h
    rcases opcodeField_of_six_le h6 with hw | hw <;> simp only [decode, ← hop, hw]

/-! ### Encode of a decoded word -/

theorem opcodeValue_opcodeField (w : Word) : opcodeValue (opcodeField w) = bitField w 22 3 :=
  opcodeValue_opcodeOfField _

/-- A word of 25 bits is the word of its fields (30_encoding.md R201). -/
theorem encodeFields_of_fields {w : Word} (h : w.toNat < 2 ^ 25) {l : Int} (hl : (l % 65536).toNat = lowField w) :
    encodeFields (opcodeField w) (regAField w) (regBField w) l = w := by
  apply BitVec.eq_of_toNat_eq
  rw [toNat_encodeFields, opcodeValue_opcodeField, hl]
  simp only [regAField, regBField, lowField, regField, bitField]
  omega

/-- Settles O4: a word of 25 bits with operands is the word of its fields, which decode keeps. -/
theorem encodeInvertsDecode : Obligations.EncodeInvertsDecode := by
  intro w h h6
  have hlow := encodeFields_of_fields h (l := lowField w) (by have := lowField_lt w; omega)
  have hoffset := encodeFields_of_fields h (l := offsetField w) (lowBits_signExtend16 (lowField_lt w))
  have hop := opcodeValue_opcodeField w
  have hop6 : bitField w 22 3 < 6 := by simp only [bitField]; omega
  unfold decode
  cases e : opcodeField w with
  | add | nand | cmov => simpa only [encode, e] using hlow
  | lw | sw | beq => simpa only [encode, e] using hoffset
  | halt | noop =>
    rw [e] at hop
    simp only [opcodeValue] at hop
    omega

/-! ### The opcode mask -/

theorem opcode_decode (w : Word) : (decode w).opcode = opcodeField w := by
  unfold decode
  cases opcodeField w <;> rfl

/-- Bits 24 to 22 of a number, in their place. -/
theorem and_opcodeMask (n : Nat) : n &&& 0x01C00000 = n / 2 ^ 22 % 2 ^ 3 * 2 ^ 22 := by
  rw [← Nat.shiftLeft_eq, ← Nat.shiftRight_eq_div_pow, ← Nat.and_two_pow_sub_one_eq_mod,
    show 0x01C00000 = (2 ^ 3 - 1) <<< 22 from rfl]
  refine Nat.eq_of_testBit_eq fun i => ?_
  simp only [Nat.testBit_and, Nat.testBit_shiftLeft, Nat.testBit_shiftRight]
  by_cases h : 22 ≤ i <;> simp [h]

/-- Settles O5: the mask keeps the opcode field in its place, and the field's value is that of the opcode. -/
theorem maskedWordSelectsOpcode : Obligations.MaskedWordSelectsOpcode := by
  intro w
  apply BitVec.eq_of_toNat_eq
  rw [opcode_decode, opcodeValue_opcodeField, BitVec.toNat_and, BitVec.toNat_ofNat, BitVec.toNat_ofNat,
    Nat.mod_eq_of_lt (by decide : 0x01C00000 < 2 ^ 32), and_opcodeMask, bitField]
  omega

/-- Settles O6: each word is decoded by computation. -/
theorem specWordsDecode : Obligations.SpecWordsDecode := by
  unfold Obligations.SpecWordsDecode
  decide

end Sys2Proof

/-! SUPPORT. Proofs of the statements on the address decomposer and the cache (20_memory.md), over the laws of
Laws/Cache.lean and Laws/Access.lean. -/

namespace Sys2Proof.Machine

/-! ### Geometry -/

/-- Two addresses have one tag and set exactly when they have one block head (20_memory.md R113). -/
theorem sameBlock_iff {c : Config} (h : c.Legal) (a b : Nat) :
    ((decompose c a).tag = (decompose c b).tag ∧ (decompose c a).setIndex = (decompose c b).setIndex) ↔
      blockHead c a = blockHead c b := by
  constructor
  · rintro ⟨htag, hset⟩
    rw [blockHead_eq h, blockHead_eq h, htag, hset]
  · intro hhead
    have hquot : a / c.blockSize = b / c.blockSize := Nat.eq_of_mul_eq_mul_right h.blockSize_pos hhead
    rw [decompose_tag h, decompose_tag h, decompose_setIndex, decompose_setIndex, hquot]
    exact ⟨rfl, rfl⟩

/-- Settles O7: an address is its block head and its offset, and the head is made of tag and set. -/
theorem decomposeRoundTrips : Obligations.DecomposeRoundTrips := by
  refine fun c hc => ⟨fun a => ⟨?_, setIndex_lt hc a, offset_lt hc a, ?_⟩, sameBlock_iff hc⟩
  · rw [← blockHead_eq hc, blockHead_add_offset]
  · rw [decompose_tag hc, Nat.div_div_eq_div_mul]

/-- Settles O8: a block head in memory is that of a block that tiles it. -/
theorem blockExtentInsideMemory : Obligations.BlockExtentInsideMemory := by
  intro c hc a ha
  have hhead := blockHead_le c a
  have hlast := extent_inside hc (k := a / c.blockSize) (hhead.trans_lt ha)
  have hsum := blockHead_add_offset c a
  have hoffset := offset_lt hc a
  refine ⟨hhead, ?_, ?_, Nat.mul_mod_left _ _⟩ <;> simp only [extentLast, blockHead] at * <;> omega

/-! ### What an access leaves in the cache -/

/-- After an access a slot holds the address: the block located there, completed, and every other slot as the location
left it (20_memory.md R119). -/
theorem State.Coherent.block_accessInRange {s : State} (h : s.Coherent) {a : Nat} (ha : a < s.cfg.memWords)
    (op : AccessOp) (k l : Nat) :
    (s.accessInRange a op).2.block k l =
      if k = (decompose s.cfg a).setIndex ∧ l = (s.locate a).1 then
        completedBlock ((s.locate a).2.block (decompose s.cfg a).setIndex (s.locate a).1) (decompose s.cfg a).offset
          s.accessCounter op
      else s.block k l := by
  have hl := h.consistent.locate ha
  obtain ⟨he, hc⟩ := s.locate_sameEngine a
  have hb := State.block_complete (a := a) hl.consistent.shape hl.consistent.legal (by rw [he.cfg]; exact hl.slot_lt) op
    k l
  rw [he.cfg, hc] at hb
  refine hb.trans ?_
  split
  · rfl
  · exact hl.others k l ‹_›

/-- After an access the located slot is valid and has the tag of the address. -/
theorem State.Coherent.holds_accessInRange {s : State} (h : s.Coherent) {a : Nat} (ha : a < s.cfg.memWords)
    (op : AccessOp) :
    ((s.accessInRange a op).2.block (decompose s.cfg a).setIndex (s.locate a).1).valid = true ∧
      ((s.accessInRange a op).2.block (decompose s.cfg a).setIndex (s.locate a).1).tag = (decompose s.cfg a).tag := by
  have hl := h.consistent.locate ha
  rw [h.block_accessInRange ha, if_pos ⟨rfl, rfl⟩, completedBlock_valid, completedBlock_tag]
  exact ⟨hl.valid, hl.tag⟩

/-- After an access the address hits (20_memory.md R102). -/
theorem State.Coherent.lookup_accessInRange {s : State} (h : s.Coherent) {a : Nat} (ha : a < s.cfg.memWords)
    (op : AccessOp) :
    (s.accessInRange a op).2.lookup (decompose s.cfg a).setIndex (decompose s.cfg a).tag = some (s.locate a).1 := by
  have hA := h.accessed ha op
  obtain ⟨hv, ht⟩ := h.holds_accessInRange ha op
  refine State.lookup_eq_some hA.coherent.consistent.shape hA.coherent.consistent.tagUnique ?_ ?_ hv ht
  · rw [hA.engine.cfg]
    exact setIndex_lt h.consistent.legal a
  · rw [hA.engine.cfg]
    exact (h.consistent.locate ha).slot_lt

/-- A write leaves the block of its address in the cache, dirty (20_memory.md R126, R127). -/
theorem State.Coherent.heldDirty_write {s : State} (h : s.Coherent) {a : Nat} (ha : a < s.cfg.memWords) (v : Word) :
    (s.accessInRange a (.write v)).2.HeldDirty a := by
  have hcfg := (h.accessed ha (.write v)).engine.cfg
  obtain ⟨hv, ht⟩ := h.holds_accessInRange ha (.write v)
  refine ⟨(s.locate a).1, ?_⟩
  rw [hcfg]
  refine ⟨(h.consistent.locate ha).slot_lt, hv, ht, ?_⟩
  rw [h.block_accessInRange ha, if_pos ⟨rfl, rfl⟩]
  rfl

/-- A read answers the view (20_memory.md R165). -/
theorem Accessed.word_read {s : State} {a : Nat} (h : Accessed s a .read) :
    (s.accessInRange a .read).1 = s.view a := h.word

/-- A read leaves every view as it was (20_memory.md R165). -/
theorem Accessed.view_read {s : State} {a : Nat} (h : Accessed s a .read) (b : Nat) :
    (s.accessInRange a .read).2.view b = s.view b := by
  rw [h.view]
  split
  · rename_i e
    rw [e]
    rfl
  · rfl

/-- Settles O9: an access in memory completes, and a read answers the view. -/
theorem cacheReadAnswersView : Obligations.CacheReadAnswersView := by
  intro s a cause h ha
  have hA := h.accessed ha .read
  refine ⟨_, ?_, hA.view_read, hA.coherent⟩
  rw [State.cacheRead, State.access_natCast ha, hA.word_read]

/-- Settles O10: a write leaves at its address the word written, in a dirty block. -/
theorem cacheWriteSetsView : Obligations.CacheWriteSetsView := by
  intro s a v cause h ha
  have hA := h.accessed ha (.write v)
  exact ⟨_, _, State.access_natCast ha _ cause, hA.view, h.heldDirty_write ha v, hA.coherent⟩

/-- Settles O21: the first read leaves the address in the cache, with every view as it was. -/
theorem secondReadHits : Obligations.SecondReadHits := by
  intro s a cause h ha
  have hA := h.accessed ha .read
  have ha' : a < (s.accessInRange a .read).2.cfg.memWords := by rw [hA.engine.cfg]; exact ha
  have hword : ((s.accessInRange a .read).2.accessInRange a .read).1 = (s.accessInRange a .read).1 := by
    rw [(hA.coherent.accessed ha' .read).word_read, hA.word_read, hA.view_read]
  have hhit := State.accessInRange_of_hit (s := (s.accessInRange a .read).2) (a := a)
    (by rw [hA.engine.cfg]; exact h.lookup_accessInRange ha .read) .read
  refine ⟨(s.accessInRange a .read).1, (s.accessInRange a .read).2,
    ((s.accessInRange a .read).2.accessInRange a .read).2, State.access_natCast ha _ cause, ?_, ?_, ?_⟩
  · rw [State.cacheRead, State.access_natCast ha', hword]
  · rw [hhit]
    rfl
  · rw [hhit, State.complete_mem]

/-! ### Misses -/

/-- A located miss: the slot chosen, filled (20_memory.md R119, R122). -/
theorem State.locate_of_miss {s : State} {a : Nat}
    (hm : s.lookup (decompose s.cfg a).setIndex (decompose s.cfg a).tag = none) :
    s.locate a = ((s.chooseSlot (decompose s.cfg a).setIndex).1,
      (s.chooseSlot (decompose s.cfg a).setIndex).2.fill (decompose s.cfg a).setIndex
        (s.chooseSlot (decompose s.cfg a).setIndex).1 a s.accessCounter) := by
  simp only [State.locate, hm]

/-- The block a missed access leaves in the chosen slot: memory's, as memory stands after any write-back, completed
(20_memory.md R122, R127, R131). -/
theorem State.Coherent.block_of_miss {s : State} (h : s.Coherent) {a : Nat} (ha : a < s.cfg.memWords)
    (hm : s.lookup (decompose s.cfg a).setIndex (decompose s.cfg a).tag = none) (op : AccessOp) :
    (s.accessInRange a op).2.block (decompose s.cfg a).setIndex (s.locate a).1 =
      completedBlock
        { valid := true, dirty := false, tag := (decompose s.cfg a).tag, ts := s.accessCounter,
          memHead := blockHead s.cfg a,
          lines := (s.accessInRange a op).2.mem.readBlock (blockHead s.cfg a) s.cfg.blockSize }
        (decompose s.cfg a).offset s.accessCounter op := by
  have hi := setIndex_lt h.consistent.legal a
  have hc := h.consistent.chooseSlot hi
  have hcfg := (s.chooseSlot_sameEngine (decompose s.cfg a).setIndex).1.cfg
  have hmem : (s.accessInRange a op).2.mem = (s.chooseSlot (decompose s.cfg a).setIndex).2.mem := by
    rw [State.accessInRange, State.complete_mem, State.locate_of_miss hm, State.fill_mem]
  rw [h.block_accessInRange ha, if_pos ⟨rfl, rfl⟩, State.locate_of_miss hm,
    State.block_congr (State.fill_cache _ _ _ _ _) (State.fill_cfg _ _ _ _ _),
    State.block_setBlock hc.consistent.shape (by rw [hcfg]; exact hi) (by rw [hcfg]; exact hc.slot_lt),
    if_pos ⟨rfl, rfl⟩, filledBlock, hcfg, hmem]

/-- Settles O13: the slot chosen holds the block filled and then written. -/
theorem writeMissAllocatesBlock : Obligations.WriteMissAllocatesBlock := by
  intro s a v cause h ha hm
  refine ⟨_, _, (s.locate a).1, State.access_natCast ha _ cause, (h.consistent.locate ha).slot_lt,
    h.block_of_miss ha hm _, fun k l hne => ?_⟩
  rw [h.block_accessInRange ha, if_neg hne]

/-- Settles O14: the slot chosen holds the block filled, and the word read is a word of it. -/
theorem readMissInstallsBlock : Obligations.ReadMissInstallsBlock := by
  intro s a cause h ha hm
  have hblock := h.block_of_miss ha hm .read
  have hA := h.accessed ha .read
  obtain ⟨hv, ht⟩ := h.holds_accessInRange ha .read
  have hword : (s.accessInRange a .read).1 = (s.accessInRange a .read).2.mem.read a := by
    have hview := State.view_of_holds hA.coherent.consistent.shape hA.coherent.consistent.tagUnique
      hA.coherent.consistent.legal (a := a) (j := (s.locate a).1)
      (by rw [hA.engine.cfg]; exact (h.consistent.locate ha).slot_lt) (by rw [hA.engine.cfg]; exact hv)
      (by rw [hA.engine.cfg]; exact ht)
    rw [hA.view_read, hA.engine.cfg, hblock] at hview
    rw [hA.word_read, hview, completedBlock, Memory.getD_readBlock _ (offset_lt h.consistent.legal a),
      blockHead_add_offset]
  refine ⟨_, (s.locate a).1, ?_, (h.consistent.locate ha).slot_lt, hblock, fun k l hne => ?_⟩
  · rw [State.cacheRead, State.access_natCast ha, hword]
  · rw [h.block_accessInRange ha, if_neg hne]

/-! ### Slot choice and events -/

/-- The lowest invalid slot of a set (20_memory.md R130). -/
theorem State.firstInvalid_eq_some {s : State} {i j : Nat} (hj : j < (s.cacheSet i).length)
    (hinvalid : (s.block i j).valid = false) (hbelow : ∀ k < j, (s.block i k).valid = true) :
    firstInvalid (s.cacheSet i) = some j := by
  refine List.findIdx?_eq_some_iff_getElem.2 ⟨hj, ?_, fun k hk => ?_⟩
  · rw [← State.block_eq_getElem, hinvalid]
    rfl
  · rw [← State.block_eq_getElem, hbelow k hk]
    simp

/-- Settles O17: the slot choice takes the lowest invalid slot before it looks for a victim. -/
theorem invalidSlotReusedFirst : Obligations.InvalidSlotReusedFirst := by
  intro s i j hj hinvalid hbelow
  simp only [State.chooseSlot, State.firstInvalid_eq_some hj hinvalid hbelow]

/-- The event of a completion (20_memory.md R153). -/
def movedEvent (a : Nat) : AccessOp → Event
  | .read => ⟨.cacheToProcessor, a, a⟩
  | .write _ => ⟨.processorToCache, a, a⟩

theorem State.complete_trace (s : State) (a j : Nat) (op : AccessOp) :
    (s.complete a j op).2.trace = s.trace ++ [movedEvent a op] := by
  cases op <;> rfl

/-- The events of a hit (20_memory.md R153). -/
theorem State.accessEvents_of_hit {s : State} {a j : Nat}
    (hl : s.lookup (decompose s.cfg a).setIndex (decompose s.cfg a).tag = some j) (op : AccessOp) :
    s.accessEvents a op = [movedEvent a op] := by
  cases op <;> simp [State.accessEvents, hl, movedEvent]

/-- The events of a slot choice: none, or the eviction of the victim of a full set (20_memory.md R137). -/
theorem State.chooseSlot_trace (s : State) (i : Nat) :
    (s.chooseSlot i).2.trace = s.trace ++
      if (s.cacheSet i).all (·.valid) then [(s.block i (victim (s.cacheSet i))).evictionEvent s.cfg.blockSize]
      else [] := by
  rcases s.chooseSlot_cases i with ⟨j, hf, h⟩ | ⟨hf, h⟩ <;> rw [h]
  · rw [if_neg, List.append_nil]
    intro hall
    rw [firstInvalid_eq_none_iff.2 (List.all_eq_true.1 hall)] at hf
    cases hf
  · rw [if_pos (List.all_eq_true.2 (firstInvalid_eq_none_iff.1 hf)), State.evict_trace]
    rfl

/-- The events of an access (20_memory.md R153). -/
theorem State.accessInRange_trace (s : State) (a : Nat) (op : AccessOp) :
    (s.accessInRange a op).2.trace = s.trace ++ s.accessEvents a op := by
  rw [State.accessInRange, State.complete_trace]
  rcases s.locate_cases a with ⟨j, hl, h⟩ | ⟨hl, h⟩ <;> rw [h]
  · rw [State.accessEvents_of_hit hl]
  · rw [State.fill_trace, State.chooseSlot_trace, (s.chooseSlot_sameEngine _).1.cfg]
    cases op <;> simp [State.accessEvents, hl, movedEvent, extentLast]

/-- Settles O19: an access in memory appends its events and advances the counter once; another does not complete. -/
theorem accessEventsInOrder : Obligations.AccessEventsInOrder := by
  intro s t a op cause w hdone
  rcases s.access_cases a op cause with ⟨-, h⟩ | ⟨-, h⟩ <;> rw [h] at hdone
  · obtain ⟨-, rfl⟩ := AccessResult.done.inj hdone
    exact ⟨(s.accessInRange_sameEngine a op).2, s.accessInRange_trace a op⟩
  · cases hdone

/-! ### The bounds check -/

theorem not_inRange_iff {cfg : Config} {a : Int} : ¬InRange cfg a ↔ a < 0 ∨ (cfg.memWords : Int) ≤ a := by
  rw [not_and_or, not_le, not_lt]

theorem State.raiseFatal_eq_faultedWith (s : State) (cause : Cause) (addr : Option Int) :
    s.raiseFatal cause addr = s.faultedWith cause addr := rfl

/-- Settles O20: the two answers of an access exclude each other, and the bounds check selects them. -/
theorem boundsFaultChangesNothing : Obligations.BoundsFaultChangesNothing := by
  intro s a op cause
  rw [← not_inRange_iff]
  rcases s.access_cases a op cause with ⟨hin, h⟩ | ⟨hout, h⟩ <;>
    rw [h, ← State.raiseFatal_eq_faultedWith]
  · simp [hin]
  · simp [hout]

end Sys2Proof.Machine

/-! SUPPORT. Proofs of the statements on what each instruction does and where it traps (41_register.md,
42_memory_access.md, 43_control.md, 60_exceptions.md), over the laws of Laws/Register.lean and Laws/Step.lean. -/

namespace Sys2Proof.Machine

/-! ### Register instructions -/

theorem exec_add (regA regB : RegIdx) (low : Nat) (s : State) :
    exec (.add regA regB low) s = .next (writeGuarded low (sumWord (s.reg regA) (s.reg regB)) s) := rfl

theorem exec_nand (regA regB : RegIdx) (low : Nat) (s : State) :
    exec (.nand regA regB low) s = .next (writeGuarded low (nandWord (s.reg regA) (s.reg regB)) s) := rfl

theorem exec_cmov (regA regB : RegIdx) (low : Nat) (s : State) :
    exec (.cmov regA regB low) s = execCmov regA regB low s := rfl

section
variable {s : State} {low : Nat}

theorem writeGuarded_of_ok {dest : RegIdx} (h : checkDest s.cfg low = .ok dest) (v : Word) :
    writeGuarded low v s = (s.setReg dest v).advancePc := by
  simp only [writeGuarded, h]

theorem writeGuarded_of_error {cause : Cause} (h : checkDest s.cfg low = .error cause) (v : Word) :
    writeGuarded low v s = s.raiseFatal cause none := by
  simp only [writeGuarded, h]

theorem execCmov_of_ok {dest : RegIdx} (h : checkDest s.cfg low = .ok dest) (regA regB : RegIdx) :
    execCmov regA regB low s =
      .next (if s.reg regB = 0 then s.advancePc else (s.setReg dest (s.reg regA)).advancePc) := by
  simp only [execCmov, h, nonZeroPattern, bne_iff_ne, ne_eq, ite_not]
  split <;> rfl

theorem execCmov_of_error {cause : Cause} (h : checkDest s.cfg low = .error cause) (regA regB : RegIdx) :
    execCmov regA regB low s = .next (s.raiseFatal cause none) := by
  simp only [execCmov, h]

/-- The register instructions behind a guard that fails all take its cause (60_exceptions.md R454, R455). -/
theorem exec_of_checkDest_error {cause : Cause} (h : checkDest s.cfg low = .error cause) (regA regB : RegIdx) :
    exec (.add regA regB low) s = .next (s.faultedWith cause none) ∧
      exec (.nand regA regB low) s = .next (s.faultedWith cause none) ∧
      exec (.cmov regA regB low) s = .next (s.faultedWith cause none) := by
  rw [exec_add, exec_nand, exec_cmov, writeGuarded_of_error h, writeGuarded_of_error h, execCmov_of_error h,
    State.raiseFatal_eq_faultedWith]
  exact ⟨rfl, rfl, rfl⟩

end

/-- The signed sum, wrapped, is the sum of the patterns (41_register.md R330). -/
theorem sumWord_eq_add (a b : Word) : sumWord a b = a + b := by
  simp [sumWord, wrap32, sint32, BitVec.ofInt_add]

/-- Settles O22: the guard names the destination, and the wrapped signed sum is the sum of the words. -/
theorem addWritesSum : Obligations.AddWritesSum := by
  intro s regA regB dest low hdest hne
  rw [exec_add, writeGuarded_of_ok (checkDest_ok.2 ⟨hdest, hne⟩), sumWord_eq_add]
  rfl

/-- Settles O23: the guard names the destination, and the word is the complement of the conjunction. -/
theorem nandWritesNotAnd : Obligations.NandWritesNotAnd := by
  intro s regA regB dest low hdest hne
  refine ⟨nandWord (s.reg regA) (s.reg regB), fun k hk => by simp [nandWord, hk], ?_⟩
  rw [exec_nand, writeGuarded_of_ok (checkDest_ok.2 ⟨hdest, hne⟩)]
  rfl

/-- Settles O24: the guard names the destination, and the condition decides whether it is written. -/
theorem cmovMovesOnNonZero : Obligations.CmovMovesOnNonZero := by
  intro s regA regB dest low hdest hne
  rw [exec_cmov, execCmov_of_ok (checkDest_ok.2 ⟨hdest, hne⟩)]
  rfl

/-! ### Memory instructions -/

theorem exec_lw (regA regB : RegIdx) (offset : Int) (s : State) :
    exec (.lw regA regB offset) s = execLw regA regB offset s := rfl

theorem exec_sw (regA regB : RegIdx) (offset : Int) (s : State) :
    exec (.sw regA regB offset) s = execSw regA regB offset s := rfl

section
variable {s : State} {regA : RegIdx} {offset : Int}

theorem execLw_of_guard (hg : loadGuardField s.cfg offset = 0) (regA regB : RegIdx) :
    execLw regA regB offset s = .next (s.raiseFatal .destZero none) := by
  simp only [execLw, hg, if_true]

theorem execLw_of_outside (hg : loadGuardField s.cfg offset ≠ 0)
    (hout : ¬InRange s.cfg (effectiveAddress s regA offset)) (regB : RegIdx) :
    execLw regA regB offset s = .next (s.raiseFatal .dataBounds (some (effectiveAddress s regA offset))) := by
  rcases execLw_cases regA regB offset s with ⟨h, -⟩ | ⟨-, -, e⟩ | ⟨-, h, -⟩
  · exact absurd h hg
  · exact e
  · exact absurd h hout

theorem execLw_of_inside (hg : loadGuardField s.cfg offset ≠ 0)
    (hin : InRange s.cfg (effectiveAddress s regA offset)) (regB : RegIdx) :
    execLw regA regB offset s =
      .next (((s.accessInRange (effectiveAddress s regA offset).toNat .read).2.setReg regB
        (s.accessInRange (effectiveAddress s regA offset).toNat .read).1).advancePc) := by
  rcases execLw_cases regA regB offset s with ⟨h, -⟩ | ⟨-, h, -⟩ | ⟨-, -, e⟩
  · exact absurd h hg
  · exact absurd hin h
  · exact e

theorem execSw_of_outside (hout : ¬InRange s.cfg (effectiveAddress s regA offset)) (regB : RegIdx) :
    execSw regA regB offset s = .next (s.raiseFatal .dataBounds (some (effectiveAddress s regA offset))) := by
  rcases execSw_cases regA regB offset s with ⟨-, e⟩ | ⟨h, -⟩
  · exact e
  · exact absurd h hout

theorem execSw_of_inside (hin : InRange s.cfg (effectiveAddress s regA offset)) (regB : RegIdx) :
    execSw regA regB offset s =
      .next (s.accessInRange (effectiveAddress s regA offset).toNat (.write (s.reg regB))).2.advancePc := by
  rcases execSw_cases regA regB offset s with ⟨h, -⟩ | ⟨-, e⟩
  · exact absurd hin h
  · exact e

end

theorem inRange_natCast {cfg : Config} {a : Nat} (h : a < cfg.memWords) : InRange cfg (a : Int) :=
  ⟨Int.natCast_nonneg a, Int.ofNat_lt.2 h⟩

/-- Settles O25: past the guard and the bounds check, `lw` is one read access and a register write. -/
theorem loadWritesView : Obligations.LoadWritesView := by
  intro s regA regB offset a h hg hea ha
  have hA := h.accessed ha .read
  have hexec := execLw_of_inside (regA := regA) hg (by rw [effectiveAddress, hea]; exact inRange_natCast ha) regB
  rw [effectiveAddress, hea, Int.toNat_natCast] at hexec
  refine ⟨_, hexec, ?_, fun q hq => ?_, ?_, hA.engine.status, hA.view_read, ?_, ?_, s.accessInRange_trace a .read,
    hA.counter, hA.coherent.congr rfl rfl rfl rfl⟩
  · rw [State.reg_advancePc, State.reg_setReg_self, hA.word_read]
  · rw [State.reg_advancePc, State.reg_setReg_ne _ hq, State.reg_congr hA.engine.regs]
  · rw [State.advancePc_pc, State.setReg_pc, hA.engine.pc]
  · exact ⟨hA.engine.cfg, hA.engine.populated, hA.engine.icount, hA.engine.fetched⟩
  · exact ⟨_, _, State.access_natCast ha _ _, rfl, rfl, rfl, rfl⟩

/-- Settles O26: past the bounds check, `sw` is one write access. -/
theorem storeSetsView : Obligations.StoreSetsView := by
  intro s regA regB offset a h hea ha
  have hA := h.accessed ha (.write (s.reg regB))
  have hexec := execSw_of_inside (regA := regA) (by rw [effectiveAddress, hea]; exact inRange_natCast ha) regB
  rw [effectiveAddress, hea, Int.toNat_natCast] at hexec
  refine ⟨_, hexec, hA.view, h.heldDirty_write ha _, State.reg_congr hA.engine.regs, ?_, hA.engine.status, ?_, ?_,
    s.accessInRange_trace a _, hA.counter, hA.coherent.congr rfl rfl rfl rfl⟩
  · rw [State.advancePc_pc, hA.engine.pc]
  · exact ⟨hA.engine.cfg, hA.engine.populated, hA.engine.icount, hA.engine.fetched⟩
  · exact ⟨_, _, State.access_natCast ha _ _, rfl, rfl, rfl, rfl⟩

/-! ### Control instructions -/

/-- Settles O27: the comparison decides the target. -/
theorem beqBranchesOnEqual : Obligations.BeqBranchesOnEqual := by
  intro s regA regB offset
  change execBeq regA regB offset s = _
  rcases execBeq_cases regA regB offset s with ⟨hc, h⟩ | ⟨hc, h⟩ <;> rw [h]
  · rw [if_pos hc]
    rfl
  · rw [if_neg hc]
    rfl

theorem exec_halt (s : State) : exec .halt s = .next s.advancePc.setHalted := rfl

theorem step_of_halted {s : State} (h : s.status = .halted) : step s = .fault .halted := by
  simp only [step, h]

/-- Settles O28: a `halt` sets the status of the state the fetch left, the step is counted, and `Halted` has no step. -/
theorem haltEndsRun : Obligations.HaltEndsRun := by
  refine ⟨exec_halt, fun s u w hs hf hd => ?_⟩
  obtain ⟨-, hregs, hpc, -, hicount, -⟩ := State.fetch_engine hf
  have hexec : exec (decode w) u = .next u.advancePc.setHalted := by rw [hd, exec_halt]
  refine ⟨u.advancePc.setHalted.counted, ?_, rfl, ?_, ?_, hregs, rfl, rfl, fun t' ht' => ?_⟩
  · rw [step_of_fetch hs hf hexec, State.retire_counted rfl]
  · exact congrArg (· + 1) hpc
  · exact congrArg (· + 1) hicount
  · rw [step_of_halted rfl] at ht'
    cases ht'

/-! ### Traps -/

/-- Settles O30: the guard answers `DEST_ZERO` on a zero field, before anything else. -/
theorem destZeroTraps : Obligations.DestZeroTraps :=
  fun _ regA regB => ⟨fun _ h => exec_of_checkDest_error (checkDest_error.2 (.inl ⟨h, rfl⟩)) regA regB,
    fun _ h => execLw_of_guard h regA regB⟩

theorem destField_bits3_lt {cfg : Config} (h : cfg.destFieldBits = .bits3) (low : Nat) : destField cfg low < 8 := by
  rw [destField, h]
  exact Nat.mod_lt _ (by decide)

/-- Settles O31: the guard answers `DEST_RANGE` on a field of 8 or more, which takes more than 3 bits. -/
theorem destRangeTraps : Obligations.DestRangeTraps :=
  fun _ regA regB low => ⟨fun h => exec_of_checkDest_error (checkDest_error.2 (.inr ⟨h, rfl⟩)) regA regB,
    fun h => destField_bits3_lt h low⟩

/-- With a 3-bit destination field the load guard is zero exactly for the multiples of 8 (30_encoding.md R206). -/
theorem loadGuardField_bits3 {cfg : Config} (h : cfg.destFieldBits = .bits3) (offset : Int) :
    loadGuardField cfg offset = 0 ↔ offset % 8 = 0 := by
  simp only [loadGuardField, h, DestFieldBits.width]
  omega

/-- Settles O32: the guard field is the offset modulo 2 to the width of the destination field. -/
theorem loadGuardReadsLowField : Obligations.LoadGuardReadsLowField := by
  intro c offset hrange
  obtain ⟨lo, hi⟩ := offsetInRange_iff.1 hrange
  exact ⟨fun h => loadGuardField_bits16 h lo hi, fun h => loadGuardField_bits3 h offset⟩

/-- The step of an instruction that takes a fatal condition after its fetch (60_exceptions.md R451). -/
theorem step_of_raise {s u : State} {w : Word} {cause : Cause} {addr : Option Int} (hs : s.status = .running)
    (hf : s.fetch = .done w u) (he : exec (decode w) u = .next (u.raiseFatal cause addr)) :
    step s = .next { u with status := .faulted ⟨cause, s.pc, some w, addr⟩, fetched := none } := by
  obtain ⟨-, -, hpc, -, -, -, hw, -⟩ := State.fetch_engine hf
  rw [step_of_fetch hs hf he, State.retire_faulted rfl, ← hpc, ← hw]
  rfl

/-- Settles O33: `lw` past its guard and `sw` check the address they compute from the registers, which the fetch
keeps. -/
theorem dataBoundsTraps : Obligations.DataBoundsTraps := by
  intro s u w regA regB offset ea hs hf hea hout hinstr
  obtain ⟨hcfg, hregs, -⟩ := State.fetch_engine hf
  have haddr : effectiveAddress u regA offset = ea := by rw [effectiveAddress, State.reg_congr hregs, hea]
  have houtside : ¬InRange u.cfg (effectiveAddress u regA offset) := by rwa [haddr, hcfg, not_inRange_iff]
  refine step_of_raise hs hf ?_
  rw [← haddr]
  rcases hinstr with ⟨hd, hg⟩ | hd <;> rw [hd]
  · rw [← hcfg] at hg
    exact execLw_of_outside hg houtside regB
  · exact execSw_of_outside houtside regB

/-- Settles O34: the fetch checks the pc before anything else. -/
theorem fetchBoundsTraps : Obligations.FetchBoundsTraps := by
  intro s hs hout
  rcases s.fetch_cases with ⟨hin, -⟩ | ⟨-, h⟩
  · exact absurd hin (not_inRange_iff.2 hout)
  · simp only [step, hs, h]
    rfl

end Sys2Proof.Machine

/-! SUPPORT. Proofs of the statements on the frames of the instructions (10_state.md R52, 20_memory.md R165), over the
inversion `exec_cases` of Laws/Step.lean. -/

namespace Sys2Proof.Machine

/-! ### What memory can show after an access -/

/-- An eviction shows at an address memory's word, or the view of an address held dirty (20_memory.md R136, R147). -/
theorem State.Consistent.read_evict_view {s : State} (h : s.Consistent) {i j : Nat} (hi : i < s.cfg.numSets)
    (hj : j < s.cfg.blocksPerSet) (hv : (s.block i j).valid = true) (b : Nat) :
    (s.evict i j).mem.read b = s.mem.read b ∨ ((s.evict i j).mem.read b = s.view b ∧ s.HeldDirty b) := by
  cases hd : (s.block i j).dirty with
  | false => exact .inl (by simp [State.evict_mem, hd])
  | true =>
    rw [h.read_evict hi hj hv]
    split
    · rename_i hb
      obtain ⟨htag, rfl⟩ := hb
      exact .inr ⟨(State.view_of_holds h.shape h.tagUnique h.legal hj hv htag.symm).symm, j, hj, hv, htag.symm, hd⟩
    · exact .inl rfl

/-- Memory after an access in memory: unchanged at an address, or the view of an address held dirty (20_memory.md R128,
R136). -/
theorem State.Coherent.read_accessInRange {s : State} (h : s.Coherent) (a : Nat) (op : AccessOp) (b : Nat) :
    (s.accessInRange a op).2.mem.read b = s.mem.read b ∨
      ((s.accessInRange a op).2.mem.read b = s.view b ∧ s.HeldDirty b) := by
  have hc := h.consistent
  have hi := setIndex_lt hc.legal a
  rcases s.accessInRange_mem a op with e | ⟨-, e⟩ <;> rw [e]
  · exact .inl rfl
  · rcases s.chooseSlot_cases (decompose s.cfg a).setIndex with ⟨j, -, e⟩ | ⟨hf, e⟩ <;> rw [e]
    · exact .inl rfl
    · have hj := victim_lt hc.shape hc.legal hi
      exact hc.read_evict_view hi hj (firstInvalid_none hc.shape hi hf hj) b

/-! ### Fatal conditions -/

theorem SameMemorySystem.view {s t : State} (h : SameMemorySystem s t) (hcfg : t.cfg = s.cfg) (b : Nat) :
    t.view b = s.view b :=
  State.view_congr hcfg h.cache h.mem b

section
variable {s t : State}

theorem Raises.sameMemorySystem (h : Raises s t) : SameMemorySystem s t := by
  cases h <;> exact ⟨rfl, rfl, rfl, rfl⟩

theorem Raises.sameFixed (h : Raises s t) : SameFixed s t := by
  cases h <;> exact ⟨rfl, rfl, rfl, rfl⟩

theorem Raises.regs (h : Raises s t) : t.regs = s.regs := by cases h <;> rfl

theorem Raises.pc (h : Raises s t) : t.pc = s.pc := by cases h <;> rfl

theorem Raises.isFaulted (h : Raises s t) : t.isFaulted = true := by cases h <;> rfl

theorem Raises.view (h : Raises s t) (b : Nat) : t.view b = s.view b :=
  h.sameMemorySystem.view h.sameFixed.cfg b

/-- The register instructions write the register their field names, or nothing (41_register.md). -/
theorem Executes.register_frame {i : Instr} {regA regB : RegIdx} {low : Nat}
    (hi : i = .add regA regB low ∨ i = .nand regA regB low ∨ i = .cmov regA regB low) (h : Executes s i t) :
    Raises s t ∨ t = s.advancePc ∨
      ∃ dest v, checkDest s.cfg low = .ok dest ∧ t = (s.setReg dest v).advancePc := by
  rcases hi with rfl | rfl | rfl
  · cases h with
    | trap h => exact .inl h
    | addDone dest hd => exact .inr (.inr ⟨dest, _, hd, rfl⟩)
  · cases h with
    | trap h => exact .inl h
    | nandDone dest hd => exact .inr (.inr ⟨dest, _, hd, rfl⟩)
  · cases h with
    | trap h => exact .inl h
    | cmovMoves dest hd => exact .inr (.inr ⟨dest, _, hd, rfl⟩)
    | cmovSkips => exact .inr (.inl rfl)

end

/-- Settles O35: a register instruction traps, moves the pc alone, or writes the register its field names. -/
theorem registerInstructionsFrame : Obligations.RegisterInstructionsFrame := by
  intro s t i regA regB low hi hexec
  rcases (exec_cases hexec).register_frame hi with h | rfl | ⟨dest, v, hd, rfl⟩
  · exact ⟨fun q _ => State.reg_congr h.regs q, .inr ⟨h.isFaulted, h.regs, h.pc⟩, h.sameFixed, h.sameMemorySystem,
      h.view⟩
  · exact ⟨fun _ _ => rfl, .inl rfl, ⟨rfl, rfl, rfl, rfl⟩, ⟨rfl, rfl, rfl, rfl⟩, fun _ => rfl⟩
  · refine ⟨fun q hq => ?_, .inl rfl, ⟨rfl, rfl, rfl, rfl⟩, ⟨rfl, rfl, rfl, rfl⟩, fun _ => rfl⟩
    rw [State.reg_advancePc, State.reg_setReg_ne _ fun e => hq (by rw [(checkDest_ok.1 hd).1, e])]

/-- Settles O36: `lw` traps, or is one read access and a register write. -/
theorem loadFrame : Obligations.LoadFrame := by
  intro s t regA regB offset h hexec
  have hfixed := (exec_cases hexec).sameFixed
  cases exec_cases hexec with
  | trap hr =>
    exact ⟨fun q _ => State.reg_congr hr.regs q, .inr ⟨hr.isFaulted, hr.regs, hr.pc, hr.sameMemorySystem⟩, hfixed,
      hr.view, fun b => .inl (by rw [hr.sameMemorySystem.mem])⟩
  | lwDone hin =>
    have hA := h.accessed hin.toNat_lt .read
    refine ⟨fun q hq => ?_, .inl hA.engine.status, hfixed, hA.view_read, h.read_accessInRange _ .read⟩
    rw [State.reg_advancePc, State.reg_setReg_ne _ hq, State.reg_congr hA.engine.regs]

/-- Settles O37: `sw` traps, or is one write access. -/
theorem storeFrame : Obligations.StoreFrame := by
  intro s t regA regB offset h hexec
  have hfixed := (exec_cases hexec).sameFixed
  cases exec_cases hexec with
  | trap hr =>
    exact ⟨hr.regs, .inr ⟨hr.isFaulted, hr.pc, hr.sameMemorySystem⟩, hfixed, fun b _ => hr.view b,
      fun b => .inl (by rw [hr.sameMemorySystem.mem])⟩
  | swDone hin =>
    have hA := h.accessed hin.toNat_lt (.write (s.reg regB))
    refine ⟨hA.engine.regs, .inl hA.engine.status, hfixed, fun b hb => ?_, h.read_accessInRange _ _⟩
    rw [State.view_advancePc, hA.view, if_neg]
    rintro rfl
    exact hb (Int.toNat_of_nonneg hin.1)

/-- The control instructions answer their completion, and never trap (43_control.md). -/
theorem exec_control {s t : State} {i : Instr} (hi : i.opcode = .beq ∨ i.opcode = .halt ∨ i.opcode = .noop)
    (h : exec i s = .next t) :
    (∃ target, t = s.setPc target) ∨ i = .halt ∧ t = s.advancePc.setHalted := by
  cases i with
  | add | nand | lw | sw | cmov => simp [Instr.opcode] at hi
  | beq a b offset =>
    change execBeq a b offset s = _ at h
    rcases execBeq_cases a b offset s with ⟨-, e⟩ | ⟨-, e⟩ <;> rw [e] at h <;> cases h
    · exact .inl ⟨_, rfl⟩
    · exact .inl ⟨_, rfl⟩
  | halt => cases h; exact .inr ⟨rfl, rfl⟩
  | noop => cases h; exact .inl ⟨_, rfl⟩

/-- Settles O38: a control instruction sets the pc, and `halt` the status as well. -/
theorem controlInstructionsFrame : Obligations.ControlInstructionsFrame := by
  intro s t i hi hexec
  rcases exec_control hi hexec with ⟨target, rfl⟩ | ⟨rfl, rfl⟩
  · exact ⟨rfl, fun _ => rfl, ⟨rfl, rfl, rfl, rfl⟩, ⟨rfl, rfl, rfl, rfl⟩, fun _ => rfl⟩
  · exact ⟨rfl, fun hne => absurd rfl hne, ⟨rfl, rfl, rfl, rfl⟩, ⟨rfl, rfl, rfl, rfl⟩, fun _ => rfl⟩

end Sys2Proof.Machine

/-! SUPPORT. Proofs of the statements on the step (40_engine.md, 60_exceptions.md R451, 20_memory.md R154), over the
inversions of Laws/Step.lean. -/

namespace Sys2Proof.Machine

/-! ### What an executed instruction leaves -/

section
variable {i : Instr} {s t : State}

/-- An instruction of a running engine takes a fatal condition or completes. -/
theorem Executes.raises_or_completes (h : Executes s i t) (hs : s.status = .running) :
    Raises s t ∨ t.isFaulted = false := by
  have access (a : Nat) (op : AccessOp) : (s.accessInRange a op).2.status = .running :=
    (s.accessInRange_sameEngine a op).1.status.trans hs
  cases h with
  | trap h => exact .inl h
  | lwDone | swDone => exact .inr (by simp [State.isFaulted, access])
  | _ => exact .inr (by simp [State.isFaulted, hs])

/-- The accesses of an instruction that completes (40_engine.md R255). -/
theorem Executes.accessCounter (h : Executes s i t) (hf : t.isFaulted = false) :
    t.accessCounter = s.accessCounter + if i.opcode = .lw ∨ i.opcode = .sw then 1 else 0 := by
  cases h with
  | trap h => rw [h.isFaulted] at hf; cases hf
  | lwDone => exact (s.accessInRange_sameEngine _ _).2
  | swDone => exact (s.accessInRange_sameEngine _ _).2
  | _ => rfl

/-- The events of an instruction that completes (20_memory.md R154). -/
theorem Executes.trace (h : Executes s i t) (hf : t.isFaulted = false) : t.trace = s.trace ++ s.dataEvents i := by
  cases h with
  | trap h => rw [h.isFaulted] at hf; cases hf
  | lwDone => exact s.accessInRange_trace _ _
  | swDone => exact s.accessInRange_trace _ _
  | _ => exact (List.append_nil _).symm

/-- The pc an instruction that completes leaves (43_control.md R430). -/
theorem Executes.pc (h : Executes s i t) (hf : t.isFaulted = false) :
    (∃ regA regB offset, i = .beq regA regB offset ∧ s.reg regA = s.reg regB ∧ t.pc = s.pc + 1 + offset) ∨
      t.pc = s.pc + 1 := by
  have access (a : Nat) (op : AccessOp) : (s.accessInRange a op).2.pc = s.pc :=
    (s.accessInRange_sameEngine a op).1.pc
  cases h with
  | trap h => rw [h.isFaulted] at hf; cases hf
  | beqTaken hc => exact .inl ⟨_, _, _, rfl, hc, rfl⟩
  | lwDone | swDone => exact .inr (congrArg (· + 1) (access _ _))
  | _ => exact .inr rfl

/-- Only `halt` ends a running engine in `Halted` (40_engine.md R250). -/
theorem Executes.halted_iff (h : Executes s i t) (hs : s.status = .running) (hf : t.isFaulted = false) :
    t.status = .halted ↔ i = .halt := by
  have access (a : Nat) (op : AccessOp) : (s.accessInRange a op).2.status = .running :=
    (s.accessInRange_sameEngine a op).1.status.trans hs
  cases h with
  | trap h => rw [h.isFaulted] at hf; cases hf
  | lwDone | swDone => simp [access]
  | _ => simp [hs]

/-- No destination field names register 0, so a completed `lw` alone writes it (10_state.md R51). -/
theorem Executes.reg_zero (h : Executes s i t) (hne : t.reg 0 ≠ s.reg 0) :
    ∃ regA offset, i = .lw regA 0 offset ∧ InRange s.cfg (effectiveAddress s regA offset) ∧
      t.reg 0 = (s.accessInRange (effectiveAddress s regA offset).toNat .read).1 := by
  have kept (dest : RegIdx) (v : Word) (low : Nat) (hd : checkDest s.cfg low = .ok dest) :
      (s.setReg dest v).reg 0 = s.reg 0 := State.reg_setReg_ne _ (checkDest_ok.1 hd).2.symm v
  have access (a : Nat) (op : AccessOp) : (s.accessInRange a op).2.reg 0 = s.reg 0 :=
    State.reg_congr (s.accessInRange_sameEngine a op).1.regs 0
  cases h with
  | trap h => exact absurd (State.reg_congr h.regs 0) hne
  | addDone dest hd => exact absurd (kept dest _ _ hd) hne
  | nandDone dest hd => exact absurd (kept dest _ _ hd) hne
  | cmovMoves dest hd => exact absurd (kept dest _ _ hd) hne
  | @lwDone regA regB offset hin =>
    by_cases hb : regB = 0
    · subst hb
      exact ⟨regA, offset, rfl, hin, by rw [State.reg_advancePc, State.reg_setReg_self]⟩
    · exact absurd ((State.reg_setReg_ne _ (Ne.symm hb) _).trans (access _ _)) hne
  | swDone => exact absurd (access _ _) hne
  | _ => exact absurd rfl hne

end

/-! ### The fetch from a coherent state -/

/-- What a completed fetch leaves, from a state whose invariants hold (40_engine.md R251, 20_memory.md R165). -/
structure Fetched (s u : State) : Prop where
  done : s.fetch = .done (s.view s.pc.toNat) u
  cfg : u.cfg = s.cfg
  regs : u.regs = s.regs
  pc : u.pc = s.pc
  status : u.status = s.status
  icount : u.icount = s.icount
  populated : u.populated = s.populated
  word : u.fetched = some (s.view s.pc.toNat)
  counter : u.accessCounter = s.accessCounter + 1
  inRange : InRange s.cfg s.pc
  view : ∀ b, u.view b = s.view b
  coherent : u.Coherent

theorem State.Coherent.fetched_of_done {s u : State} {w : Word} (h : s.Coherent) (hf : s.fetch = .done w u) :
    w = s.view s.pc.toNat ∧ Fetched s u := by
  obtain ⟨rfl, hview, hcoherent⟩ := h.fetch_view hf
  obtain ⟨hcfg, hregs, hpc, hstatus, hicount, hpopulated, hword, hcounter, hin⟩ := State.fetch_engine hf
  exact ⟨rfl, hf, hcfg, hregs, hpc, hstatus, hicount, hpopulated, hword, hcounter, hin, hview, hcoherent⟩

theorem State.Coherent.fetched {s : State} (h : s.Coherent) (hin : InRange s.cfg s.pc) : ∃ u, Fetched s u := by
  rcases s.fetch_cases with ⟨-, hf⟩ | ⟨hout, -⟩
  · exact ⟨_, (h.fetched_of_done hf).2⟩
  · exact absurd hin hout

/-- The inversion of a step from a coherent state: the fetch is out of bounds, or the instruction in the view of the pc
executes from the state the fetch left. -/
theorem State.Coherent.step_cases {s t : State} (h : s.Coherent) (hstep : step s = .next t) :
    s.status = .running ∧
      ((¬InRange s.cfg s.pc ∧ t = (s.setFetched none).raiseFatal .fetchBounds (some s.pc)) ∨
        ∃ u v, Fetched s u ∧ exec (decode (s.view s.pc.toNat)) u = .next v ∧ t = v.retire) := by
  obtain ⟨hs, hout | ⟨w, u, v, hf, he, ht⟩⟩ := Machine.step_cases hstep
  · exact ⟨hs, .inl hout⟩
  · obtain ⟨rfl, hfetched⟩ := h.fetched_of_done hf
    exact ⟨hs, .inr ⟨u, v, hfetched, he, ht⟩⟩

/-! ### The statements -/

theorem State.retire_eq (v : State) :
    v.retire = if v.isFaulted then { v with fetched := none } else v.counted := by
  cases hv : v.isFaulted with
  | false => exact State.retire_counted hv
  | true =>
    unfold State.isFaulted at hv
    split at hv
    · rw [State.retire_faulted ‹_›]
      rfl
    · cases hv

/-- Settles O39: the fetch of a coherent state, and the step of a completed fetch. -/
theorem stepRunsDecodedInstruction : Obligations.StepRunsDecodedInstruction := by
  intro s h hs h0 hlt
  obtain ⟨u, hu⟩ := h.fetched ⟨h0, hlt⟩
  obtain ⟨v, hv⟩ := exec_next (decode (s.view s.pc.toNat)) u
  refine ⟨u, v, hu.done, hu.word, hu.regs, hu.pc, hu.status.trans hs, hu.view, hu.coherent, hv, ?_⟩
  rw [step_of_fetch hs hu.done hv, State.retire_eq]

/-- Settles O40: every instruction answers a next state, and so does a fetch out of bounds. -/
theorem stepExistsExactlyWhileRunning : Obligations.StepExistsExactlyWhileRunning := by
  refine fun s => ⟨fun ⟨t, ht⟩ => (step_cases ht).1, fun hs => ?_⟩
  rcases s.fetch_cases with ⟨-, hf⟩ | ⟨hout, -⟩
  · obtain ⟨v, hv⟩ := exec_next (decode ((s.setFetched none).accessInRange s.pc.toNat .read).1) _
    exact ⟨_, step_of_fetch hs hf hv⟩
  · exact ⟨_, fetchBoundsTraps s hs (not_inRange_iff.1 hout)⟩

/-- The record of a fatal condition that an instruction raises is sound (60_exceptions.md R451). -/
theorem Raises.recordSound {s t : State} (h : Raises s t) {w : Word} (hw : s.fetched = some w) :
    t.recordSound = true := by
  cases h <;> simp [State.recordSound, FaultRecord.sound, hw]

theorem State.recordSound_retire (s : State) : s.retire.recordSound = s.recordSound := by
  simp only [State.recordSound, State.retire_status, State.retire_pc]

/-- Settles O41: a fatal condition changes the status alone, after a fetch that keeps registers, pc and count. -/
theorem fatalStepIsPrecise : Obligations.FatalStepIsPrecise := by
  intro s t hstep
  obtain ⟨hs, ⟨hout, rfl⟩ | ⟨w, u, v, hf, he, rfl⟩⟩ := step_cases hstep
  · refine ⟨fun _ => ⟨rfl, rfl, rfl, ?_⟩, nofun⟩
    simp [State.recordSound, FaultRecord.sound]
  · obtain ⟨-, hregs, hpc, hstatus, hicount, -, hw, -⟩ := State.fetch_engine hf
    have hex := exec_cases he
    rcases hex.raises_or_completes (hstatus.trans hs) with hr | hok
    · rw [State.isFaulted_retire, hr.isFaulted, State.recordSound_retire, State.retire_regs, State.retire_pc,
        State.retire_eq, if_pos hr.isFaulted]
      refine ⟨fun _ => ⟨hr.regs.trans hregs, hr.pc.trans hpc, hr.sameFixed.icount.trans hicount,
        hr.recordSound hw⟩, nofun⟩
    · rw [State.isFaulted_retire, hok, State.retire_counted hok]
      exact ⟨nofun, fun _ => congrArg (· + 1) (hex.sameFixed.icount.trans hicount)⟩

/-- Settles O42: the fetch is one access, and the data access of a completed `lw` or `sw` another. -/
theorem stepCountsAccesses : Obligations.StepCountsAccesses := by
  intro s t h hstep
  obtain ⟨hs, ⟨hout, rfl⟩ | ⟨u, v, hu, he, rfl⟩⟩ := h.step_cases hstep
  · rw [if_neg hout]
    rfl
  · rw [if_pos hu.inRange, State.retire_accessCounter, State.isFaulted_retire]
    have hex := exec_cases he
    rcases hex.raises_or_completes (hu.status.trans hs) with hr | hok
    · rw [hr.sameMemorySystem.accessCounter, hu.counter, hr.isFaulted]
      simp
    · rw [hex.accessCounter hok, hu.counter, hok]
      split <;> simp_all

/-- The events of a completed fetch (20_memory.md R154). -/
theorem State.fetch_trace {s u : State} {w : Word} (h : s.fetch = .done w u) :
    u.trace = s.trace ++ s.accessEvents s.pc.toNat .read := by
  rcases s.fetch_cases with ⟨-, hf⟩ | ⟨-, hf⟩ <;> rw [hf] at h <;> cases h
  exact (s.setFetched none).accessInRange_trace s.pc.toNat .read

/-- Settles O44: the fetch's events, then those of the instruction unless it traps. -/
theorem stepEventsInOrder : Obligations.StepEventsInOrder := by
  intro s t u w hs hf hstep
  obtain ⟨v, hv⟩ := exec_next (decode w) u
  rw [step_of_fetch hs hf hv] at hstep
  cases hstep
  rw [State.retire_trace, State.isFaulted_retire, ← State.fetch_trace hf]
  have hex := exec_cases hv
  obtain ⟨-, -, -, hstatus, -⟩ := State.fetch_engine hf
  rcases hex.raises_or_completes (hstatus.trans hs) with hr | hok
  · rw [hr.sameMemorySystem.trace, hr.isFaulted, if_pos rfl, List.append_nil]
  · rw [hex.trace hok, hok, if_neg Bool.false_ne_true]

/-- An access emits 1 to 3 events (20_memory.md R153). -/
theorem State.length_accessEvents (s : State) (a : Nat) (op : AccessOp) :
    1 ≤ (s.accessEvents a op).length ∧ (s.accessEvents a op).length ≤ 3 := by
  unfold State.accessEvents
  dsimp only
  rw [List.length_append, List.length_singleton]
  split
  · simp
  · split <;> simp

theorem State.length_dataEvents_le (s : State) (i : Instr) : (s.dataEvents i).length ≤ 3 := by
  cases i with
  | lw | sw =>
    rw [State.dataEvents]
    exact (s.length_accessEvents _ _).2
  | _ => exact Nat.zero_le 3

/-- Settles O43: a step makes at most two accesses of at most three events each. -/
theorem stepAppendsFewEvents : Obligations.StepAppendsFewEvents := by
  intro s t hstep
  obtain ⟨hs, ⟨hout, rfl⟩ | ⟨w, u, v, hf, -, -⟩⟩ := step_cases hstep
  · exact ⟨[], (List.append_nil _).symm, Nat.zero_le 6, fun hin => absurd hin hout⟩
  · obtain ⟨hmin, hmax⟩ := s.length_accessEvents s.pc.toNat .read
    have hdata := u.length_dataEvents_le (decode w)
    refine ⟨_, (stepEventsInOrder s t u w hs hf hstep).trans (List.append_assoc _ _ _), ?_, fun _ => ?_⟩
    · rw [List.length_append]
      split
      · simp only [List.length_nil]; omega
      · omega
    · rw [List.length_append]
      omega

/-- Settles O45: the fetch keeps registers and pc, and only a taken `beq` adds more than one to it. -/
theorem onlyBranchesJump : Obligations.OnlyBranchesJump := by
  intro s t h hstep hok
  obtain ⟨hs, ⟨-, rfl⟩ | ⟨u, v, hu, he, rfl⟩⟩ := h.step_cases hstep
  · cases hok
  · rw [State.isFaulted_retire] at hok
    have hpc := (exec_cases he).pc hok
    simpa only [State.retire_pc, hu.pc, State.reg_congr hu.regs] using hpc

/-- Settles O46: a trap ends in `Faulted`, and of the completions only that of `halt` in `Halted`. -/
theorem onlyHaltHalts : Obligations.OnlyHaltHalts := by
  intro s t h hstep
  obtain ⟨hs, ⟨hout, rfl⟩ | ⟨u, v, hu, he, rfl⟩⟩ := h.step_cases hstep
  · exact iff_of_false nofun fun ⟨h0, hlt, _⟩ => hout ⟨h0, hlt⟩
  · rw [State.retire_status]
    by_cases hd : decode (s.view s.pc.toNat) = .halt
    · rw [hd, exec_halt] at he
      cases he
      exact iff_of_true rfl ⟨hu.inRange.1, hu.inRange.2, hd⟩
    · refine iff_of_false (fun hhalted => ?_) fun ⟨_, _, h⟩ => hd h
      have hex := exec_cases he
      have hok : v.isFaulted = false := by simp [State.isFaulted, hhalted]
      exact hd ((hex.halted_iff (hu.status.trans hs) hok).1 hhalted)

/-- Settles O47: no destination field names register 0, and the word `lw` reads is the view. -/
theorem onlyLoadWritesRegisterZero : Obligations.OnlyLoadWritesRegisterZero := by
  intro s t h hstep hne
  obtain ⟨hs, ⟨-, rfl⟩ | ⟨u, v, hu, he, rfl⟩⟩ := h.step_cases hstep
  · exact absurd rfl hne
  · rw [State.reg_retire, ← State.reg_congr hu.regs] at hne
    obtain ⟨regA, offset, hi, hin, hword⟩ := (exec_cases he).reg_zero hne
    refine ⟨regA, offset, hi, ?_⟩
    rw [State.reg_retire, hword, (hu.coherent.accessed hin.toNat_lt .read).word_read, hu.view, effectiveAddress,
      State.reg_congr hu.regs]

/-- Settles O48: neither the fetch nor an instruction nor the count writes them. -/
theorem configurationIsConstant : Obligations.ConfigurationIsConstant := by
  intro s t hstep
  obtain ⟨-, ⟨-, rfl⟩ | ⟨w, u, v, hf, he, rfl⟩⟩ := step_cases hstep
  · exact ⟨rfl, rfl⟩
  · obtain ⟨hcfg, -, -, -, -, hpopulated, -⟩ := State.fetch_engine hf
    have hfixed := (exec_cases he).sameFixed
    rw [State.retire_cfg, State.retire_populated]
    exact ⟨hfixed.cfg.trans hcfg, hfixed.populated.trans hpopulated⟩

/-- Settles O49: the store leaves its word in the view, which a fetch answers. -/
theorem fetchSeesStore : Obligations.FetchSeesStore := by
  intro s t regA regB offset h h0 hlt hexec
  have hin : InRange s.cfg (effectiveAddress s regA offset) := ⟨h0, hlt⟩
  rw [exec_sw, execSw_of_inside hin] at hexec
  cases hexec
  have hA := h.accessed hin.toNat_lt (.write (s.reg regB))
  have hcoherent : ((s.accessInRange (effectiveAddress s regA offset).toNat (.write (s.reg regB))).2.setPc
      (effectiveAddress s regA offset)).Coherent := hA.coherent.congr rfl rfl rfl rfl
  obtain ⟨u, hu⟩ := hcoherent.fetched (by rw [State.setPc_cfg, hA.engine.cfg]; exact hin)
  refine ⟨u, ?_⟩
  have hdone := hu.done
  rw [State.setPc_pc, State.view_setPc, hA.view, if_pos rfl] at hdone
  exact hdone

end Sys2Proof.Machine

/-! SUPPORT. Proofs of the invariants of the step (20_memory.md R141, R146 to R148, 60_exceptions.md R451) and of the
statement that the cache is invisible (20_memory.md R165, 10_state.md R67). -/

namespace Sys2Proof.Machine

/-! ### Invariants -/

theorem SameMemorySystem.coherent {s t : State} (h : SameMemorySystem s t) (hcfg : t.cfg = s.cfg) (hs : s.Coherent) :
    t.Coherent :=
  hs.congr hcfg h.cache h.mem h.accessCounter

/-- Settles O52: an instruction makes one access in memory, or touches neither cache nor memory. -/
theorem execKeepsCoherence : Obligations.ExecKeepsCoherence := by
  intro i s t h hexec
  cases exec_cases hexec with
  | trap hr => exact hr.sameMemorySystem.coherent hr.sameFixed.cfg h
  | lwDone hin => exact (h.accessed hin.toNat_lt .read).coherent.congr rfl rfl rfl rfl
  | swDone hin => exact (h.accessed hin.toNat_lt _).coherent.congr rfl rfl rfl rfl
  | _ => exact h.congr rfl rfl rfl rfl

theorem State.Coherent.retire {s : State} (h : s.Coherent) : s.retire.Coherent :=
  h.congr s.retire_cfg s.retire_cache s.retire_mem s.retire_accessCounter

/-- Fetch, instruction and count keep the invariants of cache and memory. -/
theorem State.Coherent.step {s t : State} (h : s.Coherent) (hstep : step s = .next t) : t.Coherent := by
  obtain ⟨-, ⟨-, rfl⟩ | ⟨u, v, hu, he, rfl⟩⟩ := h.step_cases hstep
  · exact h.congr rfl rfl rfl rfl
  · exact (execKeepsCoherence _ u v hu.coherent he).retire

/-- A step leaves no word in progress (log 5). -/
theorem step_fetched {s t : State} (hstep : step s = .next t) : t.fetched = none := by
  obtain ⟨-, ⟨-, rfl⟩ | ⟨w, u, v, -, -, rfl⟩⟩ := step_cases hstep
  · rfl
  · exact v.retire_fetched

theorem State.recordSound_of_not_faulted {s : State} (h : s.isFaulted = false) : s.recordSound = true := by
  unfold State.isFaulted at h
  unfold State.recordSound
  split at h
  · cases h
  · rfl

theorem step_recordSound {s t : State} (hstep : step s = .next t) : t.recordSound = true := by
  cases ht : t.isFaulted with
  | true =>
    obtain ⟨-, -, -, hsound⟩ := (fatalStepIsPrecise s t hstep).1 ht
    exact hsound
  | false => exact State.recordSound_of_not_faulted ht

/-- Settles O51: each part of the invariant is kept by a step. -/
theorem stepKeepsInvariant : Obligations.StepKeepsInvariant := by
  intro s t h hstep
  obtain ⟨hcfg, hpopulated⟩ := configurationIsConstant s t hstep
  exact ⟨h.coherent.step hstep, step_fetched hstep, step_recordSound hstep, by
    rw [hcfg, hpopulated]; exact h.populatedInside⟩

/-! ### The cache is invisible -/

theorem checkDest_congr {c c' : Config} (h : c'.destFieldBits = c.destFieldBits) (low : Nat) :
    checkDest c' low = checkDest c low := by
  have hfield : destField c' low = destField c low := by rw [destField, destField, h]
  cases hd : checkDest c low with
  | error cause => exact checkDest_error.2 (by rw [hfield]; exact checkDest_error.1 hd)
  | ok dest => exact checkDest_ok.2 (by rw [hfield]; exact checkDest_ok.1 hd)

theorem loadGuardField_congr {c c' : Config} (h : c'.destFieldBits = c.destFieldBits) (offset : Int) :
    loadGuardField c' offset = loadGuardField c offset := by
  simp only [loadGuardField, h]

theorem inRange_congr {c c' : Config} (h : c'.memWords = c.memWords) (a : Int) : InRange c' a ↔ InRange c a := by
  rw [InRange, h]

theorem exec_beq (regA regB : RegIdx) (offset : Int) (s : State) :
    exec (.beq regA regB offset) s =
      .next (s.setPc (if s.reg regA = s.reg regB then s.pc + 1 + offset else s.pc + 1)) :=
  beqBranchesOnEqual s regA regB offset

namespace SameArchitecture

section
variable {s s' : State} (h : SameArchitecture s s')
include h

theorem reg (r : RegIdx) : s'.reg r = s.reg r := State.reg_congr h.regs r

theorem effectiveAddress (regA : RegIdx) (offset : Int) :
    effectiveAddress s' regA offset = effectiveAddress s regA offset := by
  rw [Machine.effectiveAddress, Machine.effectiveAddress, h.reg]

theorem setPc (target : Int) : SameArchitecture (s.setPc target) (s'.setPc target) :=
  ⟨h.regs, rfl, h.status, h.icount, h.memWords, h.destFieldBits, h.view⟩

theorem advancePc : SameArchitecture s.advancePc s'.advancePc := by
  rw [State.advancePc, State.advancePc, h.pc]
  exact h.setPc _

theorem setReg (r : RegIdx) (v : Word) : SameArchitecture (s.setReg r v) (s'.setReg r v) :=
  ⟨congrArg (Vector.set · r.val v r.isLt) h.regs, h.pc, h.status, h.icount, h.memWords, h.destFieldBits, h.view⟩

theorem setHalted : SameArchitecture s.setHalted s'.setHalted :=
  ⟨h.regs, h.pc, rfl, h.icount, h.memWords, h.destFieldBits, h.view⟩

theorem setFetched (w : Option Word) : SameArchitecture (s.setFetched w) (s'.setFetched w) :=
  ⟨h.regs, h.pc, h.status, h.icount, h.memWords, h.destFieldBits, h.view⟩

/-- A fatal condition records pc, word and address, on which the two agree. -/
theorem raiseFatal (hw : s'.fetched = s.fetched) (cause : Cause) (addr : Option Int) :
    SameArchitecture (s.raiseFatal cause addr) (s'.raiseFatal cause addr) := by
  refine ⟨h.regs, h.pc, ?_, h.icount, h.memWords, h.destFieldBits, h.view⟩
  rw [State.raiseFatal_status, State.raiseFatal_status, h.pc, hw]

theorem retire : SameArchitecture s.retire s'.retire := by
  have hicount : s'.retire.icount = s.retire.icount := by
    simp only [State.retire, h.status, h.icount]
    split <;> simp [h.icount]
  refine ⟨?_, ?_, ?_, hicount, ?_, ?_, fun b hb => ?_⟩
  · rw [State.retire_regs, State.retire_regs, h.regs]
  · rw [State.retire_pc, State.retire_pc, h.pc]
  · rw [State.retire_status, State.retire_status, h.status]
  · rw [State.retire_cfg, State.retire_cfg, h.memWords]
  · rw [State.retire_cfg, State.retire_cfg, h.destFieldBits]
  · rw [State.retire_cfg] at hb
    rw [State.view_retire, State.view_retire, h.view b hb]

/-- A guarded write writes one register or takes the guard's cause, and the guard reads the field width alone. -/
theorem writeGuarded (hw : s'.fetched = s.fetched) (low : Nat) (v : Word) :
    SameArchitecture (writeGuarded low v s) (writeGuarded low v s') := by
  have hd := checkDest_congr h.destFieldBits low
  cases hs : checkDest s.cfg low with
  | error cause =>
    rw [writeGuarded_of_error hs, writeGuarded_of_error (hd.trans hs)]
    exact h.raiseFatal hw cause none
  | ok dest =>
    rw [writeGuarded_of_ok hs, writeGuarded_of_ok (hd.trans hs)]
    exact (h.setReg dest v).advancePc

theorem cmov (hw : s'.fetched = s.fetched) (regA regB : RegIdx) (low : Nat) :
    ∃ t t', exec (.cmov regA regB low) s = .next t ∧ exec (.cmov regA regB low) s' = .next t' ∧
      SameArchitecture t t' := by
  have hd := checkDest_congr h.destFieldBits low
  rw [exec_cmov, exec_cmov]
  cases hs : checkDest s.cfg low with
  | error cause =>
    exact ⟨_, _, execCmov_of_error hs _ _, execCmov_of_error (hd.trans hs) _ _, h.raiseFatal hw cause none⟩
  | ok dest =>
    refine ⟨_, _, execCmov_of_ok hs _ _, execCmov_of_ok (hd.trans hs) _ _, ?_⟩
    rw [h.reg regA, h.reg regB]
    split
    · exact h.advancePc
    · exact (h.setReg dest _).advancePc

/-- An access sees the view alone and leaves the same views, whatever the two caches hold. -/
theorem access (hs : s.Coherent) (hs' : s'.Coherent) {a : Nat} (ha : a < s.cfg.memWords) (op : AccessOp) :
    (s'.accessInRange a op).1 = (s.accessInRange a op).1 ∧
      SameArchitecture (s.accessInRange a op).2 (s'.accessInRange a op).2 := by
  have hA := hs.accessed ha op
  have hA' := hs'.accessed (h.memWords ▸ ha) op
  refine ⟨by rw [hA.word, hA'.word, h.view a ha], ?_, ?_, ?_, ?_, ?_, ?_, fun b hb => ?_⟩
  · rw [hA.engine.regs, hA'.engine.regs, h.regs]
  · rw [hA.engine.pc, hA'.engine.pc, h.pc]
  · rw [hA.engine.status, hA'.engine.status, h.status]
  · rw [hA.engine.icount, hA'.engine.icount, h.icount]
  · rw [hA.engine.cfg, hA'.engine.cfg, h.memWords]
  · rw [hA.engine.cfg, hA'.engine.cfg, h.destFieldBits]
  · rw [hA.engine.cfg] at hb
    rw [hA.view, hA'.view, h.view a ha, h.view b hb]

theorem lw (hs : s.Coherent) (hs' : s'.Coherent) (hw : s'.fetched = s.fetched) (regA regB : RegIdx) (offset : Int) :
    ∃ t t', exec (.lw regA regB offset) s = .next t ∧ exec (.lw regA regB offset) s' = .next t' ∧
      SameArchitecture t t' := by
  have hguard := loadGuardField_congr h.destFieldBits offset
  have haddr := h.effectiveAddress regA offset
  have hrange := inRange_congr h.memWords (Machine.effectiveAddress s regA offset)
  rw [exec_lw, exec_lw]
  by_cases hg : loadGuardField s.cfg offset = 0
  · exact ⟨_, _, execLw_of_guard hg _ _, execLw_of_guard (hguard.trans hg) _ _, h.raiseFatal hw _ _⟩
  have hg' : loadGuardField s'.cfg offset ≠ 0 := hguard ▸ hg
  by_cases hin : InRange s.cfg (Machine.effectiveAddress s regA offset)
  · refine ⟨_, _, execLw_of_inside hg hin _, execLw_of_inside hg' (by rwa [haddr, hrange]) _, ?_⟩
    obtain ⟨hword, hA⟩ := h.access hs hs' hin.toNat_lt .read
    rw [haddr, hword]
    exact (hA.setReg regB _).advancePc
  · refine ⟨_, _, execLw_of_outside hg hin _, execLw_of_outside hg' (by rwa [haddr, hrange]) _, ?_⟩
    rw [haddr]
    exact h.raiseFatal hw _ _

theorem sw (hs : s.Coherent) (hs' : s'.Coherent) (hw : s'.fetched = s.fetched) (regA regB : RegIdx) (offset : Int) :
    ∃ t t', exec (.sw regA regB offset) s = .next t ∧ exec (.sw regA regB offset) s' = .next t' ∧
      SameArchitecture t t' := by
  have haddr := h.effectiveAddress regA offset
  have hrange := inRange_congr h.memWords (Machine.effectiveAddress s regA offset)
  rw [exec_sw, exec_sw]
  by_cases hin : InRange s.cfg (Machine.effectiveAddress s regA offset)
  · refine ⟨_, _, execSw_of_inside hin _, execSw_of_inside (by rwa [haddr, hrange]) _, ?_⟩
    rw [haddr, h.reg]
    exact (h.access hs hs' hin.toNat_lt _).2.advancePc
  · refine ⟨_, _, execSw_of_outside hin _, execSw_of_outside (by rwa [haddr, hrange]) _, ?_⟩
    rw [haddr]
    exact h.raiseFatal hw _ _

/-- The commuting diagram of the instructions: equal architecture in, equal architecture out. -/
theorem exec (hs : s.Coherent) (hs' : s'.Coherent) (hw : s'.fetched = s.fetched) (i : Instr) :
    ∃ t t', exec i s = .next t ∧ exec i s' = .next t' ∧ SameArchitecture t t' := by
  cases i with
  | add regA regB low =>
    refine ⟨_, _, exec_add .., exec_add .., ?_⟩
    rw [h.reg, h.reg]
    exact h.writeGuarded hw low _
  | nand regA regB low =>
    refine ⟨_, _, exec_nand .., exec_nand .., ?_⟩
    rw [h.reg, h.reg]
    exact h.writeGuarded hw low _
  | lw regA regB offset => exact h.lw hs hs' hw regA regB offset
  | sw regA regB offset => exact h.sw hs hs' hw regA regB offset
  | beq regA regB offset =>
    refine ⟨_, _, exec_beq .., exec_beq .., ?_⟩
    rw [h.reg, h.reg, h.pc]
    exact h.setPc _
  | cmov regA regB low => exact h.cmov hw regA regB low
  | halt => exact ⟨_, _, exec_halt s, exec_halt s', h.advancePc.setHalted⟩
  | noop => exact ⟨_, _, exec_noop s, exec_noop s', h.advancePc⟩

/-- The fetch keeps what a program can observe. -/
theorem fetched {u u' : State} (hu : Fetched s u) (hu' : Fetched s' u') : SameArchitecture u u' := by
  refine ⟨?_, ?_, ?_, ?_, ?_, ?_, fun b hb => ?_⟩
  · rw [hu.regs, hu'.regs, h.regs]
  · rw [hu.pc, hu'.pc, h.pc]
  · rw [hu.status, hu'.status, h.status]
  · rw [hu.icount, hu'.icount, h.icount]
  · rw [hu.cfg, hu'.cfg, h.memWords]
  · rw [hu.cfg, hu'.cfg, h.destFieldBits]
  · rw [hu.cfg] at hb
    rw [hu.view, hu'.view, h.view b hb]

/-- The word at the pc is the same, where the pc is in memory. -/
theorem view_pc (hin : InRange s.cfg s.pc) : s'.view s'.pc.toNat = s.view s.pc.toNat := by
  rw [h.pc, h.view _ hin.toNat_lt]

end

end SameArchitecture

/-- The step of a running engine whose pc is outside memory (60_exceptions.md R452). -/
theorem step_of_outside {s : State} (hs : s.status = .running) (hout : ¬InRange s.cfg s.pc) :
    step s = .next ((s.setFetched none).raiseFatal .fetchBounds (some s.pc)) :=
  fetchBoundsTraps s hs (not_inRange_iff.1 hout)

/-- Settles O50: fetch, instruction and count each keep what a program can observe. -/
theorem cacheIsInvisible : Obligations.CacheIsInvisible := by
  intro s s' t hs hs' h hstep
  obtain ⟨hrun, ⟨hout, rfl⟩ | ⟨u, v, hu, he, rfl⟩⟩ := hs.step_cases hstep
  · refine ⟨_, step_of_outside (h.status.trans hrun) (by rwa [h.pc, inRange_congr h.memWords]), ?_⟩
    rw [h.pc]
    exact (h.setFetched none).raiseFatal rfl _ _
  · obtain ⟨u', hu'⟩ := hs'.fetched (by rw [h.pc, inRange_congr h.memWords]; exact hu.inRange)
    have hview := h.view_pc hu.inRange
    obtain ⟨w, w', hw, hw', hsame⟩ := (h.fetched hu hu').exec hu.coherent hu'.coherent
      (by rw [hu.word, hu'.word, hview]) (decode (s.view s.pc.toNat))
    cases he.symm.trans hw
    refine ⟨w'.retire, step_of_fetch (h.status.trans hrun) hu'.done ?_, hsame.retire⟩
    rw [hview, hw']

end Sys2Proof.Machine

/-! SUPPORT. Proofs of the statements on reset, boot and the host's reports (10_state.md R68, 70_reset_and_hazards.md),
over the laws of Laws/Memory.lean and Laws/Cache.lean. -/

namespace Sys2Proof.Machine

/-! ### Reset -/

@[simp] theorem State.block_initial (cfg : Config) (i j : Nat) : (State.initial cfg).block i j = Block.invalid cfg := by
  simp only [State.block, State.cacheSet, State.initial, List.getD, List.getElem?_replicate]
  split
  · rw [Option.getD_some, List.getElem?_replicate]
    split <;> rfl
  · rfl

theorem State.cacheShape_initial (cfg : Config) : (State.initial cfg).CacheShape := by
  refine ⟨List.length_replicate, fun set hset => ?_⟩
  obtain rfl := List.eq_of_mem_replicate hset
  refine ⟨List.length_replicate, fun b hb => ?_⟩
  obtain rfl := List.eq_of_mem_replicate hb
  exact List.length_replicate

/-- A cache without valid blocks meets every invariant on blocks. -/
theorem State.coherent_of_invalid {s : State} (hlegal : s.cfg.Legal) (hshape : s.CacheShape) (hwf : s.mem.wf)
    (hinside : ∀ p ∈ s.mem, p.1 < s.cfg.memWords) (hinvalid : ∀ i j, (s.block i j).valid = false) : s.Coherent := by
  have absurd_valid {i j : Nat} {p : Prop} (hv : (s.block i j).valid = true) : p := by
    rw [hinvalid] at hv
    cases hv
  exact ⟨⟨hlegal, hshape, hwf, hinside, fun _ _ _ _ hv => absurd_valid hv, fun _ _ _ _ _ _ hv => absurd_valid hv,
    fun _ _ _ _ hv => absurd_valid hv⟩, fun _ _ _ _ hv => absurd_valid hv, fun _ _ _ _ _ _ hv => absurd_valid hv⟩

section
variable {cfg : Config} {ws : List Word}

theorem State.block_loadProgram (i j : Nat) :
    ((State.initial cfg).loadProgram ws).block i j = Block.invalid cfg :=
  State.block_initial cfg i j

theorem State.coherent_loadProgram (hc : cfg.Legal) (hlen : ws.length ≤ cfg.memWords) :
    ((State.initial cfg).loadProgram ws).Coherent := by
  refine State.coherent_of_invalid hc ((State.cacheShape_initial cfg).congr rfl rfl)
    (Memory.wf_writeBlock Memory.wf_nil 0 ws) (fun p hp => ?_) fun i j => ?_
  · rcases Memory.mem_writeBlock hp with hp | hp
    · show p.1 < cfg.memWords
      omega
    · cases hp
  · rw [State.block_loadProgram]
    rfl

/-- A loaded program, between steps and not yet run, meets the invariant. -/
theorem State.inv_loadProgram (hc : cfg.Legal) (hlen : ws.length ≤ cfg.memWords) :
    ((State.initial cfg).loadProgram ws).Inv :=
  ⟨State.coherent_loadProgram hc hlen, rfl, rfl, hlen⟩

theorem State.read_loadProgram (a : Nat) : ((State.initial cfg).loadProgram ws).mem.read a = ws.getD a 0 := by
  rw [State.loadProgram_mem, State.initial, Memory.read_writeBlock Memory.wf_nil, Nat.zero_add, Nat.sub_zero]
  split
  · rfl
  · rw [List.getD_eq_default _ _ (by omega)]
    rfl

theorem State.view_loadProgram (hc : cfg.Legal) (hlen : ws.length ≤ cfg.memWords) (a : Nat) :
    ((State.initial cfg).loadProgram ws).view a = ws.getD a 0 := by
  rw [State.view_of_absent (State.coherent_loadProgram hc hlen).consistent.shape hc, State.read_loadProgram]
  rintro j - ⟨hv, -⟩
  rw [State.block_loadProgram] at hv
  cases hv

end

theorem Config.legal_hardware : Config.hardware.Legal := by constructor <;> decide

/-- Settles O53: reset is the load of the empty program. -/
theorem resetMeetsInvariant : Obligations.ResetMeetsInvariant :=
  State.inv_loadProgram (ws := []) Config.legal_hardware (Nat.zero_le _)

/-- Settles O54: every row is a field of `State.initial`, and the blocks are copies of the invalid one. -/
theorem resetLeavesSpecValues : Obligations.ResetLeavesSpecValues := by
  refine ⟨fun cfg => ?_, rfl, by decide⟩
  obtain ⟨hsets, hset⟩ := State.cacheShape_initial cfg
  refine ⟨rfl, rfl, rfl, rfl, rfl, rfl, rfl, rfl, fun _ => rfl, hsets, fun set h => (hset set h).1,
    fun set h b hb => ?_⟩
  obtain rfl := List.eq_of_mem_replicate h
  obtain rfl := List.eq_of_mem_replicate hb
  exact ⟨rfl, rfl, rfl, rfl, rfl, List.length_replicate, fun v hv => List.eq_of_mem_replicate hv⟩

/-! ### Configuration arguments -/

theorem parseArgument_pos {t : Text} {n : Nat} (h : parseArgument t = some n) : 1 ≤ n := by
  unfold parseArgument at h
  split at h
  · split at h
    · rename_i i _ hi
      cases h
      omega
    · cases h
  · cases h

/-- The arguments parse to a geometry that fits the memory (70_reset_and_hazards.md R504 items 2 to 4). -/
def ArgumentsFit (params : Config) (size sets ways : Text) : Prop :=
  ∃ b n k, parseArgument size = some b ∧ parseArgument sets = some n ∧ parseArgument ways = some k ∧
    GeometryFits b n params.memWords

theorem checkArguments_of_length {args : List Text} (h : args.length ≠ 4) (params : Config) :
    checkArguments params args = .error .configArgs := by
  unfold checkArguments
  split
  · exact absurd rfl h
  · rfl

theorem checkArguments_of_not_fit {params : Config} {path size sets ways : Text}
    (h : ¬ArgumentsFit params size sets ways) :
    checkArguments params [path, size, sets, ways] = .error .configGeometry := by
  unfold checkArguments
  dsimp only
  split
  · rename_i b n k hb hn hk
    rw [if_neg fun hfit => h ⟨b, n, k, hb, hn, hk, hfit⟩]
  · rfl

theorem checkArguments_of_fit {params : Config} {path size sets ways : Text} {b n k : Nat}
    (hb : parseArgument size = some b) (hn : parseArgument sets = some n) (hk : parseArgument ways = some k)
    (hfit : GeometryFits b n params.memWords) :
    checkArguments params [path, size, sets, ways] =
      .ok (path, { params with blockSize := b, numSets := n, blocksPerSet := k }) := by
  simp only [checkArguments, hb, hn, hk, if_pos hfit]

theorem Config.legal_of_fit {params : Config} {b n k : Nat} (hb : 1 ≤ b) (hk : 1 ≤ k)
    (hfit : GeometryFits b n params.memWords) (hle : params.memWords ≤ 2 ^ 31 - 32768) :
    ({ params with blockSize := b, numSets := n, blocksPerSet := k } : Config).Legal := by
  obtain ⟨⟨hb2, hn2⟩, hbm, hmod⟩ := hfit
  exact ⟨hb2, hn2, hk, hbm, hb.trans hbm, hmod, hle⟩

/-! ### Program input -/

theorem mapM_eq_none_iff {α β : Type} {f : α → Option β} {l : List α} :
    l.mapM f = none ↔ ∃ a ∈ l, f a = none := by
  induction l with
  | nil => simp
  | cons a l ih =>
    rw [List.mapM_cons]
    cases ha : f a with
    | none => simp [ha]
    | some b =>
      cases hl : l.mapM f with
      | none => simpa [ha] using ih.1 hl
      | some bs => simpa [ha, hl] using ih

theorem length_of_mapM_eq_some {α β : Type} {f : α → Option β} {l : List α} {bs : List β}
    (h : l.mapM f = some bs) : bs.length = l.length := by
  induction l generalizing bs with
  | nil => simp_all
  | cons a l ih =>
    rw [List.mapM_cons] at h
    cases ha : f a with
    | none => simp [ha] at h
    | some b =>
      cases hl : l.mapM f with
      | none => simp [ha, hl] at h
      | some cs =>
        simp only [ha, hl, Option.bind_eq_bind, Option.bind_some, Option.pure_def, Option.some.injEq] at h
        rw [← h, List.length_cons, List.length_cons, ih hl]

/-- The three answers of the program input (70_reset_and_hazards.md R506). -/
theorem parseProgram_cases (memWords : Nat) (t : Text) :
    ((∃ l ∈ programLines t, parseLine l = none) ∧ parseProgram memWords t = .error .formatLine) ∨
      ((∀ l ∈ programLines t, parseLine l ≠ none) ∧
        ((memWords < (programLines t).length ∧ parseProgram memWords t = .error .configProgramSize) ∨
          ∃ ws : List Word, ws.length ≤ memWords ∧ ¬memWords < (programLines t).length ∧
            parseProgram memWords t = .ok ws)) := by
  unfold parseProgram
  cases h : (programLines t).mapM parseLine with
  | none => exact .inl ⟨mapM_eq_none_iff.1 h, rfl⟩
  | some ws =>
    refine .inr ⟨fun l hl hn => ?_, ?_⟩
    · rw [mapM_eq_none_iff.2 ⟨l, hl, hn⟩] at h
      cases h
    · rw [← length_of_mapM_eq_some h]
      by_cases hlong : memWords < ws.length
      · exact .inl ⟨hlong, if_pos hlong⟩
      · exact .inr ⟨ws, not_lt.1 hlong, hlong, if_neg hlong⟩

theorem parseProgram_length {memWords : Nat} {t : Text} {ws : List Word} (h : parseProgram memWords t = .ok ws) :
    ws.length ≤ memWords := by
  rcases parseProgram_cases memWords t with ⟨-, e⟩ | ⟨-, ⟨-, e⟩ | ⟨ws', hlen, -, e⟩⟩ <;> rw [e] at h <;> cases h
  exact hlen

/-! ### Boot -/

section
variable {params : Config} {readFile : Text → Option Text}

theorem boot_of_length {args : List Text} (h : args.length ≠ 4) :
    boot params args readFile = .error .configArgs := by
  simp only [boot, checkArguments_of_length h]

variable {path size sets ways : Text}

theorem boot_of_not_fit (h : ¬ArgumentsFit params size sets ways) :
    boot params [path, size, sets, ways] readFile = .error .configGeometry := by
  simp only [boot, checkArguments_of_not_fit h]

theorem boot_of_no_file (h : ArgumentsFit params size sets ways) (hr : readFile path = none) :
    boot params [path, size, sets, ways] readFile = .error .configFile := by
  obtain ⟨b, n, k, hb, hn, hk, hfit⟩ := h
  simp only [boot, checkArguments_of_fit hb hn hk hfit, hr]

theorem boot_of_program_error (h : ArgumentsFit params size sets ways) {text : Text} (hr : readFile path = some text)
    {cause : Cause} (hp : parseProgram params.memWords text = .error cause) :
    boot params [path, size, sets, ways] readFile = .error cause := by
  obtain ⟨b, n, k, hb, hn, hk, hfit⟩ := h
  simp only [boot, checkArguments_of_fit hb hn hk hfit, hr, hp]

theorem boot_of_program {b n k : Nat} (hb : parseArgument size = some b) (hn : parseArgument sets = some n)
    (hk : parseArgument ways = some k) (hfit : GeometryFits b n params.memWords) {text : Text}
    (hr : readFile path = some text) {ws : List Word} (hp : parseProgram params.memWords text = .ok ws) :
    boot params [path, size, sets, ways] readFile =
      .ok ((State.initial { params with blockSize := b, numSets := n, blocksPerSet := k }).loadProgram ws) := by
  simp only [boot, checkArguments_of_fit hb hn hk hfit, hr, hp]

end

theorem exists_four_of_length {args : List Text} (h : args.length = 4) :
    ∃ path size sets ways, args = [path, size, sets, ways] := by
  match args, h with
  | [path, size, sets, ways], _ => exact ⟨path, size, sets, ways, rfl⟩

/-- What a successful boot read and left. -/
theorem boot_ok {params : Config} {args : List Text} {readFile : Text → Option Text} {s : State}
    (h : boot params args readFile = .ok s) :
    ∃ path size sets ways b n k text ws, args = [path, size, sets, ways] ∧ parseArgument size = some b ∧
      parseArgument sets = some n ∧ parseArgument ways = some k ∧ GeometryFits b n params.memWords ∧
      readFile path = some text ∧ parseProgram params.memWords text = .ok ws ∧
      s = (State.initial { params with blockSize := b, numSets := n, blocksPerSet := k }).loadProgram ws := by
  by_cases hlen : args.length = 4
  · obtain ⟨path, size, sets, ways, rfl⟩ := exists_four_of_length hlen
    by_cases hfit : ArgumentsFit params size sets ways
    · cases hr : readFile path with
      | none => rw [boot_of_no_file hfit hr] at h; cases h
      | some text =>
        cases hp : parseProgram params.memWords text with
        | error cause => rw [boot_of_program_error hfit hr hp] at h; cases h
        | ok ws =>
          obtain ⟨b, n, k, hb, hn, hk, hg⟩ := hfit
          rw [boot_of_program hb hn hk hg hr hp] at h
          cases h
          exact ⟨path, size, sets, ways, b, n, k, text, ws, rfl, hb, hn, hk, hg, hr, hp, rfl⟩
    · rw [boot_of_not_fit hfit] at h; cases h
  · rw [boot_of_length hlen] at h; cases h

/-- Settles O55: a successful boot leaves the program loaded over reset, in a legal configuration. -/
theorem bootLoadsProgram : Obligations.BootLoadsProgram := by
  intro params args readFile s hle h
  obtain ⟨path, size, sets, ways, b, n, k, text, ws, hargs, hb, hn, hk, hfit, hr, hp, rfl⟩ := boot_ok h
  have hlegal := Config.legal_of_fit (parseArgument_pos hb) (parseArgument_pos hk) hfit hle
  have hlen := parseProgram_length hp
  refine ⟨State.inv_loadProgram hlegal hlen, rfl, rfl, rfl, rfl, rfl, rfl, rfl, rfl, rfl, rfl, fun set hset c hc => ?_,
    path, size, sets, ways, text, ws, hargs, hb, hn, hk, hr, hp, rfl,
    fun a => ⟨State.read_loadProgram a, State.view_loadProgram hlegal hlen a⟩⟩
  obtain rfl := List.eq_of_mem_replicate hset
  obtain rfl := List.eq_of_mem_replicate hc
  exact ⟨rfl, rfl⟩

/-- The ways a boot with four arguments ends, in the order of its checks (70_reset_and_hazards.md R504, R506). -/
theorem boot_cases (params : Config) (path size sets ways : Text) (readFile : Text → Option Text) :
    (¬ArgumentsFit params size sets ways ∧ boot params [path, size, sets, ways] readFile = .error .configGeometry) ∨
      ArgumentsFit params size sets ways ∧
        ((readFile path = none ∧ boot params [path, size, sets, ways] readFile = .error .configFile) ∨
          ∃ text, readFile path = some text ∧
            (((∃ l ∈ programLines text, parseLine l = none) ∧
                boot params [path, size, sets, ways] readFile = .error .formatLine) ∨
              (∀ l ∈ programLines text, parseLine l ≠ none) ∧
                ((params.memWords < (programLines text).length ∧
                    boot params [path, size, sets, ways] readFile = .error .configProgramSize) ∨
                  ¬params.memWords < (programLines text).length ∧
                    ∃ s, boot params [path, size, sets, ways] readFile = .ok s))) := by
  by_cases hfit : ArgumentsFit params size sets ways
  · refine .inr ⟨hfit, ?_⟩
    cases hr : readFile path with
    | none => exact .inl ⟨rfl, boot_of_no_file hfit hr⟩
    | some text =>
      refine .inr ⟨text, rfl, ?_⟩
      rcases parseProgram_cases params.memWords text with ⟨hbad, hp⟩ | ⟨hgood, ⟨hlong, hp⟩ | ⟨ws, -, hshort, hp⟩⟩
      · exact .inl ⟨hbad, boot_of_program_error hfit hr hp⟩
      · exact .inr ⟨hgood, .inl ⟨hlong, boot_of_program_error hfit hr hp⟩⟩
      · obtain ⟨b, n, k, hb, hn, hk, hg⟩ := hfit
        exact .inr ⟨hgood, .inr ⟨hshort, _, boot_of_program hb hn hk hg hr hp⟩⟩
  · exact .inl ⟨hfit, boot_of_not_fit hfit⟩

/-- The faults of the program input, where arguments and file are in order (70_reset_and_hazards.md R506). -/
theorem boot_program_faults {params : Config} {path size sets ways : Text} {readFile : Text → Option Text}
    (hfit : ArgumentsFit params size sets ways) {text : Text} (hr : readFile path = some text) :
    (boot params [path, size, sets, ways] readFile = .error .formatLine ↔
        ∃ l ∈ programLines text, parseLine l = none) ∧
      (boot params [path, size, sets, ways] readFile = .error .configProgramSize ↔
        (∀ l ∈ programLines text, parseLine l ≠ none) ∧ params.memWords < (programLines text).length) := by
  rcases boot_cases params path size sets ways readFile with ⟨hnot, -⟩ | ⟨-, ⟨hr', -⟩ | ⟨text', hr', hprogram⟩⟩
  · exact absurd hfit hnot
  · cases hr.symm.trans hr'
  · cases hr.symm.trans hr'
    rcases hprogram with ⟨⟨l, hl, hbad⟩, h⟩ | ⟨hgood, ⟨hlong, h⟩ | ⟨hshort, s, h⟩⟩ <;> rw [h]
    · exact ⟨iff_of_true rfl ⟨l, hl, hbad⟩, iff_of_false nofun fun ⟨hgood, _⟩ => hgood l hl hbad⟩
    · exact ⟨iff_of_false nofun fun ⟨l, hl, hbad⟩ => hgood l hl hbad, iff_of_true rfl ⟨hgood, hlong⟩⟩
    · exact ⟨iff_of_false nofun fun ⟨l, hl, hbad⟩ => hgood l hl hbad,
        iff_of_false nofun fun ⟨_, hlong⟩ => hshort hlong⟩

/-- Settles O57: the checks are made in their order, and each fault has its own cause. -/
theorem bootReportsFirstFault : Obligations.BootReportsFirstFault := by
  intro params args readFile
  by_cases hlen : args.length = 4
  · obtain ⟨path, size, sets, ways, rfl⟩ := exists_four_of_length hlen
    have hcases := boot_cases params path size sets ways readFile
    refine ⟨iff_of_false (fun h => ?_) (not_not.2 hlen), ?_⟩
    · simp [h] at hcases
    rintro path size sets ways ⟨⟩
    refine ⟨?_, fun hfit => ⟨?_, fun text hr => boot_program_faults hfit hr⟩⟩
    · change _ ↔ ¬ArgumentsFit params size sets ways
      rcases hcases with ⟨hfit, h⟩ | ⟨hfit, ⟨-, h⟩ | ⟨text, -, ⟨-, h⟩ | ⟨-, ⟨-, h⟩ | ⟨-, s, h⟩⟩⟩⟩ <;> simp [h, hfit]
    · rcases hcases with ⟨hnot, -⟩ | ⟨-, ⟨hr, h⟩ | ⟨text, hr, ⟨-, h⟩ | ⟨-, ⟨-, h⟩ | ⟨-, s, h⟩⟩⟩⟩
      · exact absurd hfit hnot
      all_goals simp [h, hr]
  · refine ⟨iff_of_true (boot_of_length hlen) hlen, ?_⟩
    rintro path size sets ways rfl
    exact absurd rfl hlen

/-! ### Program lines and reports -/

theorem sint32_wrap32 {i : Int} (lo : -(2 ^ 31) ≤ i) (hi : i ≤ 2 ^ 31 - 1) : sint32 (wrap32 i) = i := by
  rw [sint32, wrap32, BitVec.toInt_ofInt_eq_self (by decide)] <;> omega

/-- Settles O58: an integer in the range of a word is the signed reading of the word it wraps to. -/
theorem acceptedLineIsItsWord : Obligations.AcceptedLineIsItsWord := by
  intro line
  unfold parseLine
  cases h : parseDecimal (stripBlanks line) with
  | none => exact ⟨nofun, nofun⟩
  | some i =>
    refine ⟨fun w hw => ?_, ?_⟩
    · dsimp only at hw
      split at hw
      · rename_i hi
        cases hw
        rw [sint32_wrap32 hi.1 hi.2]
      · cases hw
    · rintro j ⟨⟩
      dsimp only
      split
      · exact iff_of_false nofun (by omega)
      · exact iff_of_true rfl (by omega)

theorem State.report_of_halted {s : State} (h : s.status = .halted) :
    s.report = some ⟨s.regs.toList.map sint32, (s.mem.readBlock 0 s.populated).map sint32, s.pc, s.icount⟩ := by
  simp only [State.report, h]

/-- A word of a list shown by its signed readings, where the default of either is 0. -/
theorem getD_map_sint32 (l : List Word) (n : Nat) : (l.map sint32).getD n 0 = sint32 (l.getD n 0) :=
  List.getD_map l 0 sint32

/-- Settles O60: report and diagnostic read the status and the fields they show. -/
theorem reportShowsFinalState : Obligations.ReportShowsFinalState := by
  intro s
  cases hs : s.status with
  | running => simp [State.report, State.diagnostic, State.isFaulted, hs]
  | faulted record => simp [State.report, State.diagnostic, State.isFaulted, hs, diagnose]
  | halted =>
    rw [State.report_of_halted hs]
    refine ⟨by simp, by simp [State.diagnostic, State.isFaulted, hs], ?_, by simp [State.diagnostic, hs]⟩
    rintro r ⟨⟩
    refine ⟨rfl, rfl, by simp, fun a ha => ?_, fun q => ?_⟩ <;> dsimp only <;> rw [getD_map_sint32]
    · rw [Memory.getD_readBlock _ ha, Nat.zero_add]
    · simp [State.reg, Vector.get_eq_getElem, List.getD]

end Sys2Proof.Machine

/-! SUPPORT. Proof of the statement on the word placed for the next fetch (log 10), over the laws of Laws/Memory.lean
and Laws/Cache.lean. -/

namespace Sys2Proof.Machine

/-! ### Memory blocks around a write -/

theorem Memory.readBlock_write_of_ne {m : Memory} (hm : m.wf) {a h n : Nat} (hne : ∀ k < n, h + k ≠ a) (v : Word) :
    (m.write a v).readBlock h n = m.readBlock h n :=
  Memory.readBlock_congr fun k hk => by rw [Memory.read_write hm, if_neg (hne k hk)]

theorem Memory.readBlock_write {m : Memory} (hm : m.wf) {h n k : Nat} (v : Word) :
    (m.write (h + k) v).readBlock h n = (m.readBlock h n).set k v := by
  refine List.ext_getElem (by simp) fun l _ _ => ?_
  simp [Memory.readBlock, Memory.read_write hm, List.getElem_set, eq_comm]

/-! ### Coherence when words change and nothing else does -/

/-- The two blocks agree on what the invariants on heads, tags and timestamps read. -/
structure Block.SameHeader (b c : Block) : Prop where
  valid : c.valid = b.valid
  tag : c.tag = b.tag
  ts : c.ts = b.ts
  memHead : c.memHead = b.memHead

/-- The invariants read the words of blocks and memory in `CleanAgrees` alone. -/
theorem State.Coherent.of_sameHeader {s t : State} (h : s.Coherent) (hcfg : t.cfg = s.cfg) (hshape : t.CacheShape)
    (hwf : t.mem.wf) (hinside : ∀ p ∈ t.mem, p.1 < s.cfg.memWords) (hcounter : t.accessCounter = s.accessCounter)
    (hsame : ∀ k l, (s.block k l).SameHeader (t.block k l)) (hclean : t.CleanAgrees) : t.Coherent := by
  have hv := fun k l => (hsame k l).valid
  have htag := fun k l => (hsame k l).tag
  have hts := fun k l => (hsame k l).ts
  have hhead := fun k l => (hsame k l).memHead
  refine ⟨⟨hcfg ▸ h.consistent.legal, hshape, hwf, hcfg ▸ hinside, ?_, ?_, hclean⟩, ?_, ?_⟩
  · simpa only [State.BlockHeads, hcfg, hv, htag, hhead] using h.consistent.heads
  · simpa only [State.TagUnique, hcfg, hv, htag] using h.consistent.tagUnique
  · simpa only [State.StampsBelow, hcfg, hv, hts, hcounter] using h.stampsBelow
  · simpa only [State.StampsDistinct, hcfg, hv, hts] using h.stampsDistinct

section
variable {s : State}

/-- A valid block of another tag or set does not hold the address. -/
theorem State.Consistent.head_add_ne (h : s.Consistent) {a i j : Nat} (hi : i < s.cfg.numSets)
    (hj : j < s.cfg.blocksPerSet) (hv : (s.block i j).valid = true)
    (hne : ¬(i = (decompose s.cfg a).setIndex ∧ (s.block i j).tag = (decompose s.cfg a).tag)) {k : Nat}
    (hk : k < s.cfg.blockSize) : (s.block i j).memHead + k ≠ a := by
  rintro rfl
  rw [(h.heads i hi j hj hv).1, decompose_extent h.legal hi hk] at hne
  exact hne ⟨rfl, rfl⟩

theorem State.Coherent.inside_write (h : s.Coherent) {a : Nat} (ha : a < s.cfg.memWords) (w : Word) :
    ∀ p ∈ s.mem.write a w, p.1 < s.cfg.memWords := by
  intro p hp
  rcases Memory.mem_write hp with rfl | hp
  · exact ha
  · exact h.consistent.memInside p hp

variable {a : Nat}

/-- A word put in memory, at an address the cache does not hold. -/
theorem State.Coherent.place_absent (h : s.Coherent) (ha : a < s.cfg.memWords)
    (hl : s.lookup (decompose s.cfg a).setIndex (decompose s.cfg a).tag = none) (w : Word) :
    ({ s with mem := s.mem.write a w } : State).Coherent ∧ ({ s with mem := s.mem.write a w } : State).view a = w := by
  have hc := h.consistent
  have habsent := fun j hj => State.lookup_none hc.shape (setIndex_lt hc.legal a) hl (j := j) hj
  refine ⟨h.of_sameHeader rfl (hc.shape.congr rfl rfl) (Memory.wf_write hc.memWf a w) (h.inside_write ha w) rfl
    (fun k l => ⟨rfl, rfl, rfl, rfl⟩) fun i hi j hj hv hd => ?_, ?_⟩
  · refine (hc.cleanAgrees i hi j hj hv hd).trans (Memory.readBlock_write_of_ne hc.memWf (fun k hk => ?_) w).symm
    refine hc.head_add_ne hi hj hv ?_ hk
    rintro ⟨rfl, htag⟩
    exact habsent j hj ⟨hv, htag⟩
  · have hread := Memory.read_write hc.memWf a w a
    rw [if_pos rfl] at hread
    have hview := State.view_of_absent (s := { s with mem := s.mem.write a w }) (hc.shape.congr rfl rfl) hc.legal
      habsent
    exact hview.trans hread

/-- The block with one word replaced. -/
def Block.withWord (b : Block) (offset : Nat) (w : Word) : Block := { b with lines := b.lines.set offset w }

/-- The state with the word for the address `a` put in slot `j` of its set, and with the memory `m`. -/
def State.placeHeld (s : State) (a j : Nat) (w : Word) (m : Memory) : State :=
  { s.setBlock (decompose s.cfg a).setIndex j
      ((s.block (decompose s.cfg a).setIndex j).withWord (decompose s.cfg a).offset w) with mem := m }

@[simp] theorem State.placeHeld_cfg (s : State) (a j : Nat) (w : Word) (m : Memory) :
    (s.placeHeld a j w m).cfg = s.cfg := rfl

section
variable {j : Nat}

theorem State.CacheShape.placeHeld (h : s.CacheShape) (hc : s.cfg.Legal) (hj : j < s.cfg.blocksPerSet) (w : Word)
    (m : Memory) : (s.placeHeld a j w m).CacheShape := by
  refine (h.setBlock (decompose s.cfg a).setIndex j ?_).congr rfl rfl
  rw [Block.withWord, List.length_set]
  exact h.length_lines (setIndex_lt hc a) hj

theorem State.CacheShape.block_placeHeld (h : s.CacheShape) (hc : s.cfg.Legal) (hj : j < s.cfg.blocksPerSet) (w : Word)
    (m : Memory) (k l : Nat) :
    (s.placeHeld a j w m).block k l = if k = (decompose s.cfg a).setIndex ∧ l = j then
      (s.block (decompose s.cfg a).setIndex j).withWord (decompose s.cfg a).offset w else s.block k l :=
  State.block_setBlock h (setIndex_lt hc a) hj _ k l

theorem State.CacheShape.sameHeader_placeHeld (h : s.CacheShape) (hc : s.cfg.Legal) (hj : j < s.cfg.blocksPerSet)
    (w : Word) (m : Memory) (k l : Nat) : (s.block k l).SameHeader ((s.placeHeld a j w m).block k l) := by
  rw [h.block_placeHeld hc hj]
  split
  · rename_i e
    rw [e.1, e.2]
    exact ⟨rfl, rfl, rfl, rfl⟩
  · exact ⟨rfl, rfl, rfl, rfl⟩

/-- A slot that holds the address has its word at the address's offset. -/
theorem State.Consistent.head_add_offset (h : s.Consistent) (hj : j < s.cfg.blocksPerSet)
    (hv : (s.block (decompose s.cfg a).setIndex j).valid = true)
    (ht : (s.block (decompose s.cfg a).setIndex j).tag = (decompose s.cfg a).tag) :
    (s.block (decompose s.cfg a).setIndex j).memHead + (decompose s.cfg a).offset = a := by
  rw [(h.heads _ (setIndex_lt h.legal a) j hj hv).1, ht, ← blockHead_eq h.legal, blockHead_add_offset]

variable (h : s.Coherent) (ha : a < s.cfg.memWords)
  (hl : s.lookup (decompose s.cfg a).setIndex (decompose s.cfg a).tag = some j) (w : Word) {m : Memory}
  (hm : (s.block (decompose s.cfg a).setIndex j).dirty = true ∧ m = s.mem ∨ m = s.mem.write a w)
include h hl hm

/-- The word is in memory too unless its block is dirty, so clean blocks agree with memory (20_memory.md R147). -/
theorem State.Coherent.cleanAgrees_placeHeld : (s.placeHeld a j w m).CleanAgrees := by
  have hc := h.consistent
  obtain ⟨hj, hv, ht⟩ := State.lookup_some hc.shape (setIndex_lt hc.legal a) hl
  intro k hk l hl' hvalid hclean
  change _ = m.readBlock _ s.cfg.blockSize
  rw [hc.shape.block_placeHeld hc.legal hj] at hvalid hclean ⊢
  split
  · rename_i hslot
    rw [if_pos hslot] at hclean
    have hwritten : m = s.mem.write a w := hm.resolve_left fun ⟨hdirty, _⟩ =>
      Bool.false_ne_true (hclean.symm.trans hdirty)
    have hlines := hc.cleanAgrees _ (setIndex_lt hc.legal a) j hj hv hclean
    have hread := Memory.readBlock_write hc.memWf w (h := (s.block (decompose s.cfg a).setIndex j).memHead)
      (n := s.cfg.blockSize) (k := (decompose s.cfg a).offset)
    rw [hc.head_add_offset hj hv ht, ← hlines, ← hwritten] at hread
    exact hread.symm
  · rename_i hslot
    rw [if_neg hslot] at hvalid hclean
    refine (hc.cleanAgrees k hk l hl' hvalid hclean).trans ?_
    rcases hm with ⟨-, rfl⟩ | rfl
    · rfl
    · refine (Memory.readBlock_write_of_ne hc.memWf (fun n hn => ?_) w).symm
      refine hc.head_add_ne hk hl' hvalid ?_ hn
      rintro ⟨rfl, htag⟩
      exact hslot ⟨rfl, hc.tagUnique _ hk l hl' j hj hvalid hv (htag.trans ht.symm)⟩

include ha

theorem State.Coherent.placeHeld : (s.placeHeld a j w m).Coherent := by
  have hc := h.consistent
  obtain ⟨hj, -⟩ := State.lookup_some hc.shape (setIndex_lt hc.legal a) hl
  refine h.of_sameHeader rfl (hc.shape.placeHeld hc.legal hj w m) ?_ ?_ rfl
    (hc.shape.sameHeader_placeHeld hc.legal hj w m) (h.cleanAgrees_placeHeld hl w hm)
  · rcases hm with ⟨-, rfl⟩ | rfl
    · exact hc.memWf
    · exact Memory.wf_write hc.memWf a w
  · rcases hm with ⟨-, rfl⟩ | rfl
    · exact hc.memInside
    · exact h.inside_write ha w

theorem State.Coherent.view_placeHeld : (s.placeHeld a j w m).view a = w := by
  have hc := h.consistent
  have hc' := (h.placeHeld ha hl w hm).consistent
  have hi := setIndex_lt hc.legal a
  obtain ⟨hj, hv, ht⟩ := State.lookup_some hc.shape hi hl
  have hblock := hc.shape.block_placeHeld (a := a) hc.legal hj w m (decompose s.cfg a).setIndex j
  rw [if_pos ⟨rfl, rfl⟩] at hblock
  have hview := State.view_of_holds hc'.shape hc'.tagUnique hc'.legal (a := a) (j := j) hj
    (by rw [State.placeHeld_cfg, hblock]; exact hv) (by rw [State.placeHeld_cfg, hblock]; exact ht)
  rw [hview, State.placeHeld_cfg, hblock, Block.withWord]
  have hoffset := offset_lt hc.legal a
  rw [← hc.shape.length_lines hi hj] at hoffset
  simp [List.getD, hoffset]

end

/-! ### The statement -/

/-- The pc from which the next fetch can read (log 10). -/
def State.placePc (s : State) : Int := if InRange s.cfg s.pc then s.pc else 0

theorem State.inRange_placePc (hc : s.cfg.Legal) : InRange s.cfg s.placePc := by
  unfold State.placePc
  split
  · assumption
  · have := hc.memWords_pos
    exact ⟨le_rfl, by omega⟩

/-- The two places a word can be put: memory alone, or the block that holds the address, and memory unless the block is
dirty (log 10). -/
theorem State.placeWord_cases (s : State) (w : Word) :
    (s.lookup (decompose s.cfg s.placePc.toNat).setIndex (decompose s.cfg s.placePc.toNat).tag = none ∧
        s.placeWord w =
          { s with mem := s.mem.write s.placePc.toNat w, pc := s.placePc, status := .running }) ∨
      ∃ j m, s.lookup (decompose s.cfg s.placePc.toNat).setIndex (decompose s.cfg s.placePc.toNat).tag = some j ∧
        ((s.block (decompose s.cfg s.placePc.toNat).setIndex j).dirty = true ∧ m = s.mem ∨
          m = s.mem.write s.placePc.toNat w) ∧
        s.placeWord w = { s.placeHeld s.placePc.toNat j w m with pc := s.placePc, status := .running } := by
  rw [State.placeWord, ← State.placePc]
  dsimp only
  split
  · exact .inl ⟨‹_›, rfl⟩
  · refine .inr ?_
    split
    · exact ⟨_, s.mem, ‹_›, .inl ⟨‹_›, rfl⟩, rfl⟩
    · exact ⟨_, s.mem.write s.placePc.toNat w, ‹_›, .inr rfl, rfl⟩

/-- A placed word, pc and status apart, leaves a coherent state that shows the word at its pc. -/
theorem State.Coherent.placeWord (h : s.Coherent) (w : Word) :
    ∃ t : State, s.placeWord w = { t with pc := s.placePc, status := .running } ∧ t.cfg = s.cfg ∧ t.Coherent ∧
      t.view s.placePc.toNat = w := by
  have ha := (State.inRange_placePc h.consistent.legal).toNat_lt
  rcases s.placeWord_cases w with ⟨hl, e⟩ | ⟨j, m, hl, hm, e⟩
  · obtain ⟨hcoherent, hview⟩ := h.place_absent ha hl w
    exact ⟨{ s with mem := s.mem.write s.placePc.toNat w }, e, rfl, hcoherent, hview⟩
  · exact ⟨s.placeHeld s.placePc.toNat j w m, e, rfl, h.placeHeld ha hl w hm, h.view_placeHeld ha hl w hm⟩

end

/-- Settles O56: the placed state is coherent and shows the word at its pc, so the fetch answers it. -/
theorem placedWordIsFetchedNext : Obligations.PlacedWordIsFetchedNext := by
  intro s w h
  have hin := State.inRange_placePc h.consistent.legal
  obtain ⟨t, ht, hcfg, htc, hview⟩ := h.placeWord w
  rw [ht]
  have hcoherent : ({ t with pc := s.placePc, status := .running } : State).Coherent := htc.congr rfl rfl rfl rfl
  obtain ⟨u, hu⟩ := hcoherent.fetched (by rw [hcfg]; exact hin)
  have hword : ({ t with pc := s.placePc, status := .running } : State).view s.placePc.toNat = w :=
    (State.view_congr rfl rfl rfl _).trans hview
  exact ⟨hcoherent, rfl, u, hu.done.trans (congrArg (AccessResult.done · u) hword)⟩

end Sys2Proof.Machine

/-! SUPPORT. Proof of the statement on the ends of a program line (70_reset_and_hazards.md R506). -/

namespace Sys2Proof.Machine

/-! ### Blanks at the ends of a line -/

theorem isBlank_iff {c : Char} : isBlank c = true ↔ c = ' ' ∨ c = '\t' := by
  simp [isBlank]

theorem trimBlanks_append_left {before : Text} (h : ∀ c ∈ before, isBlank c = true) (t : Text) :
    trimBlanks (before ++ t) = trimBlanks t := by
  rw [trimBlanks, List.dropWhile_append_of_pos h, ← trimBlanks]

theorem trimBlanks_append_right {after : Text} (h : ∀ c ∈ after, isBlank c = true) (t : Text) :
    trimBlanks (t ++ after) = trimBlanks t := by
  have hafter : after.dropWhile isBlank = [] := List.dropWhile_eq_nil_iff.2 h
  rw [trimBlanks, List.dropWhile_append, trimBlanks]
  split
  · rename_i ht
    rw [hafter, List.isEmpty_iff.1 ht]
  · rw [List.reverse_append, List.dropWhile_append_of_pos fun c hc => h c (List.mem_reverse.1 hc)]

theorem dropWhile_isBlank_eq_self {t : Text} (h : ∀ c ∈ t.head?, isBlank c = false) : t.dropWhile isBlank = t := by
  cases t with
  | nil => rfl
  | cons c t => rw [List.dropWhile_cons, if_neg (by simpa using h c rfl)]

/-- A line that neither begins nor ends with a blank has none to trim. -/
theorem trimBlanks_eq_self {t : Text} (hfirst : ∀ c ∈ t.head?, isBlank c = false)
    (hlast : ∀ c ∈ t.getLast?, isBlank c = false) : trimBlanks t = t := by
  rw [trimBlanks, dropWhile_isBlank_eq_self hfirst, dropWhile_isBlank_eq_self (by rwa [List.head?_reverse]),
    List.reverse_reverse]

theorem trimBlanks_of_no_blank {t : Text} (h : ∀ c ∈ t, isBlank c = false) : trimBlanks t = t :=
  trimBlanks_eq_self (fun c hc => h c (List.mem_of_head? hc)) fun c hc => h c (List.mem_of_getLast? hc)

/-! ### The carriage return -/

theorem trimReturn_append_return (t : Text) : trimReturn (t ++ ['\r']) = t := by
  simp [trimReturn]

theorem trimReturn_of_no_return {t : Text} (h : '\r' ∉ t) : trimReturn t = t := by
  unfold trimReturn
  rw [if_neg fun hlast => h (List.mem_of_getLast? hlast), if_neg fun hfirst => h (List.mem_of_head? hfirst)]

theorem count_return_dropWhile (t : Text) : (t.dropWhile isBlank).count '\r' = t.count '\r' := by
  have hblank : (t.takeWhile isBlank).count '\r' = 0 :=
    List.count_eq_zero.2 fun h => by simpa [isBlank] using List.mem_takeWhile_imp h
  conv_rhs => rw [← List.takeWhile_append_dropWhile (p := isBlank) (l := t)]
  rw [List.count_append, hblank, Nat.zero_add]

theorem count_return_trimBlanks (t : Text) : (trimBlanks t).count '\r' = t.count '\r' := by
  rw [trimBlanks, List.count_reverse, count_return_dropWhile, List.count_reverse, count_return_dropWhile]

/-- Of the carriage returns of a line at most one is removed (70_reset_and_hazards.md R506). -/
theorem count_return_trimReturn (t : Text) : t.count '\r' ≤ (trimReturn t).count '\r' + 1 := by
  unfold trimReturn
  split
  · rename_i hlast
    have hsplit := List.dropLast_append_getLast? _ hlast
    conv_lhs => rw [← hsplit]
    simp
  · split
    · rename_i hfirst
      cases t with
      | nil => cases hfirst
      | cons c t =>
        cases hfirst
        exact List.count_cons_self.le
    · exact Nat.le_succ _

theorem count_return_stripBlanks (t : Text) : t.count '\r' ≤ (stripBlanks t).count '\r' + 1 := by
  rw [stripBlanks, count_return_trimBlanks, ← count_return_trimBlanks t]
  exact count_return_trimReturn _

/-! ### A carriage return is in no decimal integer -/

theorem parseDigitsFrom_of_return {t : Text} (h : '\r' ∈ t) (n : Nat) : parseDigitsFrom n t = none := by
  induction t generalizing n with
  | nil => cases h
  | cons c t ih =>
    unfold parseDigitsFrom
    split
    · rename_i d hd
      rcases List.mem_cons.1 h with rfl | h
      · cases hd
      · exact ih h _
    · rfl

theorem parseDigits_of_return {t : Text} (h : '\r' ∈ t) : parseDigits t = none := by
  rw [parseDigits, if_neg (List.ne_nil_of_mem h), parseDigitsFrom_of_return h]

theorem parseDecimal_of_return {t : Text} (h : '\r' ∈ t) : parseDecimal t = none := by
  unfold parseDecimal
  split
  · rw [parseDigits_of_return (by simpa using h)]
    rfl
  · rw [parseDigits_of_return (by simpa using h)]
    rfl
  · rw [parseDigits_of_return h]
    rfl

/-- A line with two carriage returns keeps one, and is no integer (70_reset_and_hazards.md R506). -/
theorem parseLine_of_two_returns {t : Text} (h : 2 ≤ t.count '\r') : parseLine t = none := by
  have hkept := count_return_stripBlanks t
  have hmem : '\r' ∈ stripBlanks t := List.count_pos_iff.1 (by omega)
  simp only [parseLine, parseDecimal_of_return hmem]

/-! ### The statement -/

section
variable {before body after more : Text}

theorem stripBlanks_of_blank_ends (hbefore : ∀ c ∈ before, isBlank c = true) (hafter : ∀ c ∈ after, isBlank c = true)
    (hbody : ∀ c ∈ body, isBlank c = false) (hreturn : '\r' ∉ body) : stripBlanks (before ++ body ++ after) = body := by
  rw [stripBlanks, trimBlanks_append_right hafter, trimBlanks_append_left hbefore, trimBlanks_of_no_blank hbody,
    trimReturn_of_no_return hreturn, trimBlanks_of_no_blank hbody]

/-- The blanks before a carriage return stay when it is the last character, unless nothing stands before them. -/
theorem trimBlanks_return (hafter : ∀ c ∈ after, isBlank c = true) (hbody : ∀ c ∈ body, isBlank c = false) :
    ∃ gap : Text, (∀ c ∈ gap, isBlank c = true) ∧ trimBlanks (body ++ after ++ ['\r']) = body ++ gap ++ ['\r'] := by
  cases body with
  | nil =>
    refine ⟨[], by simp, ?_⟩
    rw [List.nil_append, trimBlanks_append_left hafter]
    rfl
  | cons c body =>
    refine ⟨after, hafter, trimBlanks_eq_self (fun d hd => ?_) fun d hd => ?_⟩
    · cases hd
      exact hbody c List.mem_cons_self
    · rw [List.getLast?_append_of_ne_nil _ (List.cons_ne_nil _ _)] at hd
      cases hd
      rfl

theorem stripBlanks_of_return (hbefore : ∀ c ∈ before, isBlank c = true) (hafter : ∀ c ∈ after, isBlank c = true)
    (hmore : ∀ c ∈ more, isBlank c = true) (hbody : ∀ c ∈ body, isBlank c = false) :
    stripBlanks (before ++ body ++ after ++ '\r' :: more) = body := by
  obtain ⟨gap, hgap, htrim⟩ := trimBlanks_return hafter hbody
  have hline : before ++ body ++ after ++ '\r' :: more = before ++ (body ++ after ++ ['\r']) ++ more := by simp
  rw [stripBlanks, hline, trimBlanks_append_right hmore, trimBlanks_append_left hbefore, htrim,
    trimReturn_append_return, trimBlanks_append_right hgap, trimBlanks_of_no_blank hbody]

end

/-- Settles O59: blanks are trimmed on either side of one carriage return, and a second one stays in the line. -/
theorem lineEndsAreStripped : Obligations.LineEndsAreStripped := by
  intro before body after more hblanks hbody
  simp only [List.forall_mem_append, ← isBlank_iff] at hblanks
  obtain ⟨⟨hbefore, hafter⟩, hmore⟩ := hblanks
  have hnoblank : ∀ c ∈ body, isBlank c = false := fun c hc => by simp [isBlank, hbody c hc]
  have hreturn : '\r' ∉ body := fun h => by
    obtain ⟨-, -, hne⟩ := hbody _ h
    exact hne rfl
  refine ⟨stripBlanks_of_blank_ends hbefore hafter hnoblank hreturn,
    stripBlanks_of_return hbefore hafter hmore hnoblank, parseLine_of_two_returns ?_⟩
  simp only [List.count_append, List.count_cons_self]
  omega

end Sys2Proof.Machine
